-- ==== Sys2Proof/Word.lean ====
section
/-! DEFINITION. The word types of the block: bytes of the streams and the 64-bit registers (00_scope.md R8, R10). -/

namespace Sys2Proof

/-- One byte of a stream: the port byte width is 8 bits (R8, R54). -/
abbrev Byte := BitVec 8

/-- OPERAND, RESULT, REM and ACC are 64 bits wide (R8, R23). -/
abbrev Word64 := BitVec 64

end Sys2Proof
end

