-- ==== Sys2Proof/Config.lean ====
section
/-! DEFINITION. The implementation parameters of 00_scope.md R8. -/

namespace Sys2Proof.Config

/-- `W_VARINT`, in bits (R8). -/
abbrev wVarint : Nat := 32

/-- `MAX_VARINT`, in bytes (R8). -/
abbrev maxVarint : Nat := 5

/-- `W_VARLONG`, in bits (R8). -/
abbrev wVarlong : Nat := 64

/-- `MAX_VARLONG`, in bytes (R8). -/
abbrev maxVarlong : Nat := 10

/-- `IOCAUSE_W`, the bit width of a failure value in hardware: a parameter the spec leaves OPEN (R8; 92_eei_decisions.md
D13). It has no body, so nothing can tell which width it is, and what is proved holds for every width. -/
opaque ioCauseW : Nat

/-- `IoCause`, the type of a port's failure value (R8, R33; 93_implementation_defined.md entry 4): `IOCAUSE_W` bits, which
no rule inspects and every rule only copies. That the open type is taken as words of one open width is the model's
choice: DESIGN CHOICE, safe, log entry 1. -/
abbrev IoCause := BitVec ioCauseW

end Sys2Proof.Config
end

