-- ==== Sys2Proof/Syntax.lean ====
section
/-! DEFINITION. Commands as the host offers them, and the instructions they name (30_encoding.md R70 to R79). -/

namespace Sys2Proof

/-- A command on the command port: the one format `CMD`, an 8-bit OP and a 64-bit OPERAND (R70). -/
structure Command where
  op      : BitVec 8
  operand : Word64
  deriving DecidableEq, Repr

/-- The primitive types of the TYPE field that are assigned (R72). -/
inductive PrimType where
  | bool
  | byte
  | varint
  | varlong
  deriving DecidableEq, Repr

/-- The eight commands of R74, one constructor per row of the opcode table. Each carries the whole OPERAND
it is offered with: an encode uses a slice of it (R78), a decode ignores it (R79), and every value is legal. -/
inductive Instr where
  /-- `bool.enc`, OP = 0x00 (R160). -/
  | boolEnc (operand : Word64)
  /-- `byte.enc`, OP = 0x01 (R162). -/
  | byteEnc (operand : Word64)
  /-- `varint.enc`, OP = 0x02 (R121). -/
  | varintEnc (operand : Word64)
  /-- `varlong.enc`, OP = 0x03 (R122). -/
  | varlongEnc (operand : Word64)
  /-- `bool.dec`, OP = 0x08 (R161). -/
  | boolDec (operand : Word64)
  /-- `byte.dec`, OP = 0x09 (R163). -/
  | byteDec (operand : Word64)
  /-- `varint.dec`, OP = 0x0A (R141). -/
  | varintDec (operand : Word64)
  /-- `varlong.dec`, OP = 0x0B (R142). -/
  | varlongDec (operand : Word64)
  deriving DecidableEq, Repr

end Sys2Proof
end

