-- ==== Sys2Proof/WellFormed.lean ====
section
/-! DEFINITION. Which commands are legal (30_encoding.md R71, R72, R76), and which instructions the assembler's
mnemonics can write (R88, R91). No OPERAND value is illegal (R78, R79), so being legal is a matter of OP alone. -/

namespace Sys2Proof

/-- The RSV field of OP, bits 7:4, is 0000 (R71). -/
def rsvClear (op : BitVec 8) : Bool := op.extractLsb' 4 4 == 0#4

/-- The TYPE field of OP, bits 2:0, is one of the four assigned types 000 to 011 (R72). -/
def typeAssigned (op : BitVec 8) : Bool := decide ((op.extractLsb' 0 3).toNat < 4)

/-- `Legal(op)`: RSV is zero and TYPE is assigned (R76). -/
def legal (op : BitVec 8) : Bool := rsvClear op && typeAssigned op

/-- A well-formed command: its opcode is legal (R76). -/
def Command.wellFormed (c : Command) : Bool := legal c.op

/-- A well-formed instruction. Each constructor is a legal opcode and each OPERAND value is legal, so every
instruction is well-formed: "Bits outside the slice are ignored" (R78), "Decode commands ... ignore OPERAND
entirely" (R79). -/
def Instr.wellFormed : Instr → Bool
  | .boolEnc _ => true
  | .byteEnc _ => true
  | .varintEnc _ => true
  | .varlongEnc _ => true
  | .boolDec _ => true
  | .byteDec _ => true
  | .varintDec _ => true
  | .varlongDec _ => true

/-- No bit of OPERAND that the instruction ignores is set: exactly the instructions the mnemonics of R88 write,
and those a disassembler prints by mnemonic (R91). Running an instruction does not depend on it. -/
def Instr.canonical : Instr → Bool
  | .boolEnc x => decide (x.toNat < 2)
  | .byteEnc x => decide (x.toNat < 2 ^ 8)
  | .varintEnc x => decide (x.toNat < 2 ^ 32)
  | .varlongEnc _ => true
  | .boolDec x => decide (x.toNat = 0)
  | .byteDec x => decide (x.toNat = 0)
  | .varintDec x => decide (x.toNat = 0)
  | .varlongDec x => decide (x.toNat = 0)

end Sys2Proof
end

