-- ==== Sys2Proof/Decode.lean ====
section
/-! DEFINITION. The total command decoder (30_encoding.md R75), the encoder written from R71 to R74, and the
numbering of a command's bits as spec/opcode_table.json numbers them. -/

namespace Sys2Proof

/-- Why a command is illegal, in the order R75 checks. -/
inductive Illegal where
  /-- `OP[7:4] ≠ 0` (R75). -/
  | rsvNonZero
  /-- `OP[2] = 1`, a reserved TYPE (R75). -/
  | reservedType
  deriving DecidableEq, Repr

/-- The decoder of R75: total on all 256 opcodes; an illegal one is rejected by name. OPERAND takes no part in
the selection (R74). -/
def decode (c : Command) : Except Illegal Instr :=
  if c.op.extractLsb' 4 4 ≠ 0#4 then .error .rsvNonZero
  else if c.op.getLsbD 2 then .error .reservedType
  else .ok <|
    match c.op.getLsbD 3, c.op.getLsbD 1, c.op.getLsbD 0 with
    | false, false, false => .boolEnc c.operand
    | false, false, true  => .byteEnc c.operand
    | false, true,  false => .varintEnc c.operand
    | false, true,  true  => .varlongEnc c.operand
    | true,  false, false => .boolDec c.operand
    | true,  false, true  => .byteDec c.operand
    | true,  true,  false => .varintDec c.operand
    | true,  true,  true  => .varlongDec c.operand

/-- The OP of an instruction, as the binary column of R74 gives it: RSV = 0000, then DIR, then TYPE (R71). -/
def Instr.opcode : Instr → BitVec 8
  | .boolEnc _    => 0b00000000#8
  | .byteEnc _    => 0b00000001#8
  | .varintEnc _  => 0b00000010#8
  | .varlongEnc _ => 0b00000011#8
  | .boolDec _    => 0b00001000#8
  | .byteDec _    => 0b00001001#8
  | .varintDec _  => 0b00001010#8
  | .varlongDec _ => 0b00001011#8

/-- The OPERAND of an instruction (R70). -/
def Instr.operand : Instr → Word64
  | .boolEnc x | .byteEnc x | .varintEnc x | .varlongEnc x => x
  | .boolDec x | .byteDec x | .varintDec x | .varlongDec x => x

/-- The encoder: the command the host offers for an instruction (R70, R74). -/
def encode (i : Instr) : Command := ⟨i.opcode, i.operand⟩

/-- A command as one number, bit 0 the least significant: OP is bits 7:0, as the opcode table numbers them, and
OPERAND is bits 71:8. DESIGN CHOICE, safe: log entry 13. -/
def Command.toTableWord (c : Command) : Nat := c.op.toNat + 2 ^ 8 * c.operand.toNat

/-- The command whose bits `w` has below `nbits`; every bit from `nbits` up is 0 (log entry 13). -/
def commandOfTableWord (nbits w : Nat) : Command :=
  ⟨BitVec.ofNat 8 (w % 2 ^ nbits), BitVec.ofNat 64 (w % 2 ^ nbits / 2 ^ 8)⟩

/-- The instruction the decoder reads from a table word. -/
def decodeTableWord (nbits w : Nat) : Option Instr := (decode (commandOfTableWord nbits w)).toOption

end Sys2Proof
end

