-- ==== Sys2Proof/Machine/State.lean ====
section
/-! DEFINITION. The block's state (10_state.md R23), the answers of its environment as plain data (R20), the
reasons a step can stop, and the state after reset (R40). -/

namespace Sys2Proof.Machine

open Sys2Proof.Config (IoCause)

/-- FSM: IDLE or RUN (R34). -/
inductive Fsm where
  | idle
  | run
  deriving DecidableEq, Repr

/-- The values of STATUS.ERR that are ever produced (R24, R28). -/
inductive ErrCode where
  | none
  | tooBig
  | io
  | illegalCmd
  deriving DecidableEq, Repr

/-- STATUS by its fields (R24). Its reserved bits have no storage: they read 0 at all times and no step writes
them (R30). The 16-bit word is `Status.word`. DEDUCED, safe: log entry 18. -/
structure Status where
  busy  : Bool
  done  : Bool
  valid : Bool
  err   : ErrCode
  count : BitVec 4
  deriving DecidableEq, Repr

/-- What `SrcRead()` can answer (20_memory.md R50). -/
inductive SrcAnswer where
  | byte (b : Byte)
  | fail (c : IoCause)
  deriving DecidableEq, Repr

/-- What `SnkWrite(b)` can answer (R51). -/
inductive SnkAnswer where
  | ack
  | fail (c : IoCause)
  deriving DecidableEq, Repr

/-- The reset input at one step (70_reset_and_hazards.md R210). When it is asserted while the block waits for a
port, `answerLost` says whether the answer to the withdrawn transaction is lost with it: the port side is
"any value" (93_implementation_defined.md entry 8). DESIGN CHOICE, safe: log entries 10 and 11. -/
inductive ResetSample where
  | deasserted
  | asserted (answerLost : Bool)
  deriving DecidableEq, Repr

/-- The errors a command can end with, as `raise` names them (00_scope.md R12; 60_exceptions.md R181 to R183). -/
inductive CmdError where
  | tooBig
  | io (c : IoCause)
  | illegalCmd
  deriving DecidableEq, Repr

/-- The block and, below it, its environment as plain data. -/
structure State where
  /-- STATUS (R24 to R30). -/
  status  : Status
  /-- RESULT (R32). -/
  result  : Word64
  /-- IOCAUSE (R33). -/
  iocause : IoCause
  /-- FSM (R34). -/
  fsm     : Fsm
  /-- OP, the opcode of the legal command accepted last (R35). -/
  op      : BitVec 8
  /-- REM, the remaining value of an encode (R36). -/
  rem     : Word64
  /-- ACC, the accumulator of a decode (R37). -/
  acc     : Word64
  /-- The commands the host will offer, oldest first (R63, R92); the model's own field, log entry 7. -/
  offers     : List Command
  /-- The answers to the coming `SrcRead`s (R20, R50); the model's own field, log entry 7. -/
  srcAnswers : List SrcAnswer
  /-- The answers to the coming `SnkWrite`s (R20, R51); the model's own field, log entry 7. -/
  snkAnswers : List SnkAnswer
  /-- The reset input, one sample per coming step (R210); the model's own field, log entry 10. -/
  resetInput : List ResetSample
  /-- The bytes the sink has acknowledged, oldest first (R51, R57); the model's own field, log entry 12. -/
  acked      : List Byte
  deriving DecidableEq, Repr

/-- Why the machine stops. Neither happens from a state a run reaches, and the spec gives no effect at either. -/
inductive Fault where
  /-- Raised by `step` when FSM = RUN and OP names no command: R44 gives no body. Safe; log entry 15. -/
  | opNotLegalInRun
  /-- Raised by varint.dec and varlong.dec when a byte arrives at an index COUNT of MAX or more, where DecStep is
  not defined (R104, R140). Safe; log entry 16. -/
  | decStepIndexOutOfRange
  deriving DecidableEq, Repr

/-- Why an instruction has no meaning. -/
inductive Refusal where
  /-- Raised by an arm of `exec` whose instruction is not modelled yet. Safe. No arm raises it. -/
  | notModelled (mnemonic : String)
  deriving DecidableEq, Repr

/-- The block right after reset (R40). FSM and STATUS are the spec's; RESULT, IOCAUSE, OP, REM and ACC, which a
reset does not write and which are unspecified at power-on, are DESIGN CHOICE 0 and unsafe (log entries 2 to 6);
the environment offers and answers nothing yet (DESIGN CHOICE, log entry 8). -/
def State.reset : State where
  status  := { busy := false, done := false, valid := false, err := .none, count := 0#4 }
  result  := 0#64
  iocause := 0#_
  fsm     := .idle
  op      := 0#8
  rem     := 0#64
  acc     := 0#64
  offers     := []
  srcAnswers := []
  snkAnswers := []
  resetInput := []
  acked      := []

end Sys2Proof.Machine
end

