-- ==== Sys2Proof/Machine/Flags.lean ====
section
/-! DEFINITION. STATUS: its 16-bit layout (10_state.md R24) and each way a rule writes its fields (R38). -/

namespace Sys2Proof.Machine

/-- The 3-bit code of STATUS.ERR (R24, R28). -/
def ErrCode.code : ErrCode → BitVec 3
  | .none       => 0#3
  | .tooBig     => 1#3
  | .io         => 2#3
  | .illegalCmd => 3#3

/-- STATUS as the 16-bit word of R24: BUSY is bit 0, DONE bit 1, VALID bit 2, ERR bits 6:4, COUNT bits 11:8; bits
3, 7 and 15:12 read 0 (R30). -/
def Status.word (t : Status) : BitVec 16 :=
  0#4 ++ t.count ++ 0#1 ++ t.err.code ++ 0#1 ++ BitVec.ofBool t.valid ++ BitVec.ofBool t.done ++ BitVec.ofBool t.busy

/-- Acceptance of any command clears DONE, VALID, ERR and COUNT (R43). -/
def Status.clearOutcome (t : Status) : Status :=
  { t with done := false, valid := false, err := .none, count := 0#4 }

/-- Acceptance of a legal command sets BUSY (R25, R43). -/
def Status.setBusy (t : Status) : Status := { t with busy := true }

/-- A successful transaction of a VarInt or VarLong command adds 1 to COUNT (R29, R120, R140). -/
def Status.countUp (t : Status) : Status := { t with count := t.count + 1#4 }

/-- The one successful transaction of a Bool or Byte command: `STATUS.COUNT <- 1` (R160 to R163). -/
def Status.countOne (t : Status) : Status := { t with count := 1#4 }

/-- A successful decode sets VALID (R27, R45). -/
def Status.setValid (t : Status) : Status := { t with valid := true }

/-- `Complete()`: BUSY is cleared and DONE set (R45). -/
def Status.complete (t : Status) : Status := { t with busy := false, done := true }

/-- An abort writes ERR, clears BUSY and sets DONE; VALID and COUNT keep their values (R185). -/
def Status.abort (e : ErrCode) (t : Status) : Status := { t with err := e, busy := false, done := true }

/-- An illegal command writes ERR and sets DONE; BUSY stays as it is (R164). -/
def Status.markIllegal (t : Status) : Status := { t with err := .illegalCmd, done := true }

/-- A reset clears every field (R40, R210). -/
def Status.cleared : Status := { busy := false, done := false, valid := false, err := .none, count := 0#4 }

end Sys2Proof.Machine
end

