-- ==== Sys2Proof/Machine/Operands.lean ====
section
/-! DEFINITION. Widening (00_scope.md R10) and the operand slices (30_encoding.md R78). -/

namespace Sys2Proof.Machine

/-- `zext_64`: widen (or keep) to 64 bits with zeros (R10). -/
def zext64 {n : Nat} (v : BitVec n) : Word64 := v.setWidth 64

/-- `sext_64`: widen (or keep) to 64 bits by copying the top bit (R10). -/
def sext64 {n : Nat} (v : BitVec n) : Word64 := v.signExtend 64

/-- `x[w-1:0]`, the low `w` bits of a 64-bit register (R9). -/
def lowBits (w : Nat) (x : Word64) : BitVec w := x.extractLsb' 0 w

/-- `zext_64(OperandSlice(type, operand))`: the part of OPERAND an encode command encodes, zero-extended; the
bits outside the slice are ignored (R78). -/
def operandSlice : PrimType → Word64 → Word64
  | .bool,    x => zext64 (lowBits 1 x)
  | .byte,    x => zext64 (lowBits 8 x)
  | .varint,  x => zext64 (lowBits 32 x)
  | .varlong, x => x

end Sys2Proof.Machine
end

