-- ==== Sys2Proof/Machine/Ops.lean ====
section
/-! DEFINITION. The named operations every meaning is made of: acceptance, the two port primitives, completion,
raising an error (the block's one form of "taking an exception"), reset, and the command port. -/

namespace Sys2Proof.Machine

open Sys2Proof.Config (IoCause)

/-- What a step of this machine answers. -/
abbrev Result := Host.Outcome State Fault Refusal

/-- Acceptance of a legal encode command (R43): the outcome fields are cleared, OP written, REM loaded with the
zero-extended operand slice (R36, R78), FSM set to RUN and BUSY to 1. No port transaction takes place. -/
def acceptEncode (op : BitVec 8) (ty : PrimType) (operand : Word64) (s : State) : State :=
  { s with status := s.status.clearOutcome.setBusy, op := op, rem := operandSlice ty operand, fsm := .run }

/-- Acceptance of a legal decode command (R43): as for an encode, but ACC is cleared (R37) and REM kept; OPERAND is
not looked at (R79). -/
def acceptDecode (op : BitVec 8) (s : State) : State :=
  { s with status := s.status.clearOutcome.setBusy, op := op, acc := 0#64, fsm := .run }

/-- `raise` (R12), the one way a command ends with an error. TooBig and Io are the abort of 60_exceptions.md R185:
ERR is written, an Io writes IOCAUSE with the port's value unchanged, FSM returns to IDLE, BUSY is cleared and DONE
set, and nothing else changes. IllegalCmd is 43_fixed_width.md R164: FSM and BUSY stay as they are. There is no
return from an error: the next acceptance or a reset clears it (R189). -/
def raise (e : CmdError) (s : State) : State :=
  match e with
  | .tooBig     => { s with status := s.status.abort .tooBig, fsm := .idle }
  | .io c       => { s with status := s.status.abort .io, iocause := c, fsm := .idle }
  | .illegalCmd => { s with status := s.status.markIllegal }

/-- Acceptance of an illegal command: the outcome fields are cleared and IllegalCmd raised in the same step (R43,
R164). -/
def acceptIllegal (s : State) : State :=
  raise .illegalCmd { s with status := s.status.clearOutcome }

/-- `Complete()` (R45). -/
def complete (s : State) : State := { s with status := s.status.complete, fsm := .idle }

/-- The successful end of a decode: RESULT and VALID are written in the same step, before `Complete()` (R45). -/
def completeDecode (value : Word64) (s : State) : State :=
  complete { s with result := value, status := s.status.setValid }

/-- The COUNT increment of a VarInt or VarLong transaction (R29). -/
def countUp (s : State) : State := { s with status := s.status.countUp }

/-- `STATUS.COUNT <- 1` of a Bool or Byte transaction (R160 to R163). -/
def countOne (s : State) : State := { s with status := s.status.countOne }

/-- `SrcRead()` (R50) and what follows it. While the source has not answered the block holds with no change (R44,
R52; log entry 9). `Fail(c)` raises Io with no byte delivered (R182). `Byte(b)` is consumed from the stream and
handed on. -/
def srcRead (onByte : Byte → State → Result) (s : State) : Result :=
  match s.srcAnswers with
  | [] => .next s
  | .fail c :: rest => .next (raise (.io c) { s with srcAnswers := rest })
  | .byte b :: rest => onByte b { s with srcAnswers := rest }

/-- `SnkWrite(b)` (R51) and what follows it. While the sink has not answered the block holds with no change (R44,
R52; log entry 9). `Fail(c)` raises Io, and `b` counts as not written (R57; log entry 12). `Ack` appends `b` after
every byte acknowledged before it. -/
def snkWrite (b : Byte) (onAck : State → Result) (s : State) : Result :=
  match s.snkAnswers with
  | [] => .next s
  | .fail c :: rest => .next (raise (.io c) { s with snkAnswers := rest })
  | .ack :: rest => onAck { s with snkAnswers := rest, acked := s.acked ++ [b] }

/-- The command in progress, as its OP says (R44). Its OPERAND is no longer held, and no transfer step uses it (log
entry 20). -/
def commandInProgress (s : State) : Command := ⟨s.op, 0#64⟩

/-- The port transaction the block has issued is withdrawn by a reset (R211). The port agents are not reset. When
`answerLost` holds, the answer the port would have given is gone; DIR, bit 3 of OP, says which port it is (R71;
93_implementation_defined.md entry 8, log entry 11). -/
def withdraw (answerLost : Bool) (s : State) : State :=
  match s.fsm, answerLost with
  | .run, true =>
    if s.op.getLsbD 3 then { s with srcAnswers := s.srcAnswers.tail } else { s with snkAnswers := s.snkAnswers.tail }
  | _, _ => s

/-- The reset step (R210, R211): FSM and STATUS take the values of R40; RESULT, IOCAUSE, OP, REM and ACC keep
theirs; bytes consumed and acknowledged stay so; the host still holds the commands not accepted. -/
def resetStep (answerLost : Bool) (s : State) : State :=
  { withdraw answerLost s with status := Status.cleared, fsm := .idle }

/-- The sample of the reset input for this step, and the state with it taken; past the end of the list the input is
not asserted (log entry 10). -/
def takeResetSample (s : State) : ResetSample × State :=
  match s.resetInput with
  | [] => (.deasserted, s)
  | r :: rest => (r, { s with resetInput := rest })

/-- The command port in IDLE: the offer the host makes, with the state in which it is taken (R43, R63). -/
def takeOffer (s : State) : Option (Command × State) :=
  match s.offers with
  | [] => none
  | c :: rest => some (c, { s with offers := rest })

/-- The host offers `c` before everything else it offers, to a block that is ready (R25, R214) and not in reset at
the next step (log entry 14). -/
def offerNow (c : Command) (s : State) : State :=
  { s with offers := c :: s.offers, fsm := .idle, status := { s.status with busy := false },
           resetInput := .deasserted :: s.resetInput }

end Sys2Proof.Machine
end

