-- ==== Sys2Proof/Machine/FixedWidth.lean ====
section
/-! DEFINITION. The fixed-width Bool/Byte codec (43_fixed_width.md R160 to R163). Each meaning is the accept step in
IDLE (R43) and the one transfer step in RUN (R44). -/

namespace Sys2Proof.Machine

/-- The transfer step of a one-byte encode: write `b`, COUNT <- 1, complete (R160, R162). -/
def encodeOneByte (b : Byte) (s : State) : Result :=
  snkWrite b (fun t => .next (complete (countOne t))) s

/-- The transfer step of a one-byte decode: read a byte, COUNT <- 1, RESULT and VALID, complete (R161, R163). -/
def decodeOneByte (value : Byte → Word64) (s : State) : Result :=
  srcRead (fun b t => .next (completeDecode (value b) (countOne t))) s

/-- The byte BOOL.ENC writes: `zext_8(REM[0])` (R160). -/
def boolByte (rem : Word64) : Byte := (lowBits 1 rem).setWidth 8

/-- The value BOOL.DEC reads: 1 for every byte but 0x00 (R161). -/
def boolValue (b : Byte) : Word64 := if b ≠ 0x00#8 then 1#64 else 0#64

/-- BOOL.ENC (R160). -/
def execBoolEnc (operand : Word64) (s : State) : Result :=
  match s.fsm with
  | .idle => .next (acceptEncode 0x00#8 .bool operand s)
  | .run  => encodeOneByte (boolByte s.rem) s

/-- BYTE.ENC (R162). -/
def execByteEnc (operand : Word64) (s : State) : Result :=
  match s.fsm with
  | .idle => .next (acceptEncode 0x01#8 .byte operand s)
  | .run  => encodeOneByte (lowBits 8 s.rem) s

/-- BOOL.DEC (R161). -/
def execBoolDec (s : State) : Result :=
  match s.fsm with
  | .idle => .next (acceptDecode 0x08#8 s)
  | .run  => decodeOneByte boolValue s

/-- BYTE.DEC (R163). -/
def execByteDec (s : State) : Result :=
  match s.fsm with
  | .idle => .next (acceptDecode 0x09#8 s)
  | .run  => decodeOneByte (fun b => sext64 b) s

end Sys2Proof.Machine
end

