-- ==== Sys2Proof/Machine/Shifter.lean ====
section
/-! DEFINITION. The continuation-bit shifter: two pure functions of the width W (40_shifter.md R100 to R108), and
the canonical encoding in closed form (30_encoding.md R80 to R84). -/

namespace Sys2Proof.Machine

/-- What `EncStep_W` answers: the byte to emit, the remaining value, and whether it was the last byte (R101). -/
structure EncOut (w : Nat) where
  byte : Byte
  rem  : BitVec w
  last : Bool
  deriving DecidableEq, Repr

/-- A wire byte: bit 7 is the continuation bit, bits 6:0 the group (R80). -/
def wireByte (more : Bool) (group : BitVec 7) : Byte := BitVec.ofBool more ++ group

/-- The continuation bit `b[7]` of a wire byte (R80). -/
def continuation (b : Byte) : Bool := b.getLsbD 7

/-- The 7-bit group `b[6:0]` of a wire byte (R80). -/
def group (b : Byte) : BitVec 7 := b.extractLsb' 0 7

/-- `EncStep_W` (R101): take the low 7 bits, shift the rest right by 7 with zeros, and set the continuation bit
exactly when bits remain. -/
def encStep {w : Nat} (rem : BitVec w) : EncOut w :=
  let rem' := rem >>> 7
  let last := rem' == 0#w
  { byte := wireByte (!last) (rem.extractLsb' 0 7), rem := rem', last := last }

/-- `DecStep_W` (R104): the group widened to W bits, shifted left by 7k at width W, or-ed into the accumulator.
Defined for k up to MAX-1; the meanings call it for no other k. -/
def decStep {w : Nat} (acc : BitVec w) (k : Nat) (b : Byte) : BitVec w :=
  acc ||| ((group b).setWidth w <<< (7 * k))

/-- The bytes of successive `EncStep_W` calls up to the one with `last = true`, at most `fuel` of them (R109). -/
def encBytes {w : Nat} : Nat → BitVec w → List Byte
  | 0, _ => []
  | fuel + 1, rem =>
    let e := encStep rem
    if e.last then [e.byte] else e.byte :: encBytes fuel e.rem

/-- `DecStep_W` folded over bytes, the first of them at index `k` (R109). -/
def decFold {w : Nat} : BitVec w → Nat → List Byte → BitVec w
  | acc, _, [] => acc
  | acc, k, b :: bs => decFold (decStep acc k b) (k + 1) bs

/-- The length `n` of the canonical encoding of the unsigned pattern `u` (R83): 1 below 2^7, otherwise the least
`n` with `u < 2^(7n)`, limited by MAX. -/
def encLength (max u : Nat) : Nat :=
  ((List.range max).find? fun k => decide (u < 2 ^ (7 * (k + 1)))).elim max (· + 1)

/-- The canonical encoding of `u`, byte by byte and without the shifter: byte `k` carries value bits `[7k+6:7k]`,
and all but the last have the continuation bit (R58, R81, R83). -/
def canonicalBytes (max u : Nat) : List Byte :=
  (List.range (encLength max u)).map fun k =>
    wireByte (decide (k + 1 < encLength max u)) (BitVec.ofNat 7 (u / 2 ^ (7 * k)))

/-- The value of a byte sequence: the sum of its groups, group `k` at bit offset `7k` (R81, R85). -/
def groupSum : List Byte → Nat
  | [] => 0
  | b :: bs => (group b).toNat + 2 ^ 7 * groupSum bs

end Sys2Proof.Machine
end

