-- ==== Sys2Proof/Machine/VarDecode.lean ====
section
/-! DEFINITION. The VarInt/VarLong decoder (42_varint_decode.md R140 to R149). -/

namespace Sys2Proof.Machine

/-- `DecodeVarStep(W, MAX)` (R140) once a byte has arrived at index `COUNT`: ACC takes the group and COUNT goes up;
a clear continuation bit completes the command, also at index MAX-1 (R149); otherwise a COUNT of MAX raises TooBig
(R143); otherwise the command goes on. At an index of MAX or more DecStep is not defined (R104), and R140 is not
entered there (log entry 16). -/
def takeGroup (w max : Nat) (b : Byte) (s : State) : Result :=
  if s.status.count.toNat < max then
    let acc := decStep (lowBits w s.acc) s.status.count.toNat b
    let u := countUp { s with acc := zext64 acc }
    if continuation b = false then .next (completeDecode (sext64 acc) u)
    else if u.status.count.toNat = max then .next (raise .tooBig u)
    else .next u
  else .fault .decStepIndexOutOfRange

/-- `DecodeVarStep(W, MAX)` (R140): one `SrcRead` and what follows it. -/
def decodeVarStep (w max : Nat) (s : State) : Result := srcRead (takeGroup w max) s

/-- VARINT.DEC (R141). -/
def execVarintDec (s : State) : Result :=
  match s.fsm with
  | .idle => .next (acceptDecode 0x0A#8 s)
  | .run  => decodeVarStep Config.wVarint Config.maxVarint s

/-- VARLONG.DEC (R142). -/
def execVarlongDec (s : State) : Result :=
  match s.fsm with
  | .idle => .next (acceptDecode 0x0B#8 s)
  | .run  => decodeVarStep Config.wVarlong Config.maxVarlong s

end Sys2Proof.Machine
end

