-- ==== Sys2Proof/Machine/VarEncode.lean ====
section
/-! DEFINITION. The VarInt/VarLong encoder (41_varint_encode.md R120 to R122). -/

namespace Sys2Proof.Machine

/-- `EncodeVarStep(W)` (R120): one byte from the shifter to the sink; on Ack, COUNT goes up, REM takes the remaining
value, and the command completes when nothing remains. -/
def encodeVarStep (w : Nat) (s : State) : Result :=
  let e := encStep (lowBits w s.rem)
  snkWrite e.byte
    (fun t =>
      let u := { countUp t with rem := zext64 e.rem }
      if e.last then .next (complete u) else .next u)
    s

/-- VARINT.ENC (R121). -/
def execVarintEnc (operand : Word64) (s : State) : Result :=
  match s.fsm with
  | .idle => .next (acceptEncode 0x02#8 .varint operand s)
  | .run  => encodeVarStep Config.wVarint s

/-- VARLONG.ENC (R122). -/
def execVarlongEnc (operand : Word64) (s : State) : Result :=
  match s.fsm with
  | .idle => .next (acceptEncode 0x03#8 .varlong operand s)
  | .run  => encodeVarStep Config.wVarlong s

end Sys2Proof.Machine
end

