-- ==== Sys2Proof/Machine/Dispatch.lean ====
section
/-! DEFINITION. One arm per command of the opcode table (30_encoding.md R74, 10_state.md R44). -/

namespace Sys2Proof.Machine

/-- The step an instruction takes: its acceptance in IDLE (R43), its transfer body in RUN (R44). -/
def exec (i : Instr) (s : State) : Host.Outcome State Fault Refusal :=
  match i with
  | .boolEnc operand => Sys2Proof.Machine.execBoolEnc operand s
  | .byteEnc operand => Sys2Proof.Machine.execByteEnc operand s
  | .varintEnc operand => Sys2Proof.Machine.execVarintEnc operand s
  | .varlongEnc operand => Sys2Proof.Machine.execVarlongEnc operand s
  | .boolDec _ => Sys2Proof.Machine.execBoolDec s
  | .byteDec _ => Sys2Proof.Machine.execByteDec s
  | .varintDec _ => Sys2Proof.Machine.execVarintDec s
  | .varlongDec _ => Sys2Proof.Machine.execVarlongDec s

end Sys2Proof.Machine
end

