-- ==== Sys2Proof/Machine/Step.lean ====
section
/-! DEFINITION. One step of the block (10_state.md R42): a reset, or an acceptance in IDLE, or a transfer in RUN. -/

namespace Sys2Proof.Machine

/-- A step with the reset input not asserted. In IDLE the host's offer, if there is one, is accepted: a legal command
by its meaning, an illegal one by R164. In RUN the command in progress takes its transfer step (R44), and nothing the
host offers is accepted (R214). -/
def blockStep (s : State) : Host.Outcome State Fault Refusal :=
  match s.fsm with
  | .idle =>
    match takeOffer s with
    | none => .next s
    | some (c, t) =>
      match decode c with
      | .ok i => exec i t
      | .error _ => .next (acceptIllegal t)
  | .run =>
    match decode (commandInProgress s) with
    | .ok i => exec i s
    | .error _ => .fault .opNotLegalInRun

/-- One step: the reset input decides first (R210, R211). -/
def step (s : State) : Host.Outcome State Fault Refusal :=
  match takeResetSample s with
  | (.asserted answerLost, t) => .next (resetStep answerLost t)
  | (.deasserted, t) => blockStep t

/-- The state in which the very next step accepts the command with these bits (log entries 13 and 14). The block
fetches nothing (R65): the host offers the command, and a program is the list `offers` (R92; log entry 8). -/
def State.withFetchWord (s : State) (nbits w : Nat) : State := offerNow (commandOfTableWord nbits w) s

end Sys2Proof.Machine
end

