-- ==== Sys2Proof/Machine/Asm.lean ====
section
/-! DEFINITION. The assembler syntax (30_encoding.md R88 to R92): lines, assembling, disassembling, and their text. -/

namespace Sys2Proof.Machine

/-- The mnemonics of R88 that name a command. -/
inductive Mnemonic where
  | boolEnc
  | byteEnc
  | varintEnc
  | varlongEnc
  | boolDec
  | byteDec
  | varintDec
  | varlongDec
  deriving DecidableEq, Repr

/-- An operand literal: decimal with an optional leading `-`, or hexadecimal giving the bit pattern (R89). -/
inductive Literal where
  | dec (negative : Bool) (magnitude : Nat)
  | hex (pattern : Nat)
  deriving DecidableEq, Repr

/-- An operand: `true`, `false` or a literal (R88). -/
inductive Arg where
  | tru
  | fls
  | lit (l : Literal)
  deriving DecidableEq, Repr

/-- A line of assembly: a mnemonic with or without an operand, or a raw `.cmd <op8>, <u64>` (R88). -/
inductive Line where
  | mnem (m : Mnemonic) (arg : Option Arg)
  | cmd (op operand : Literal)
  deriving DecidableEq, Repr

/-- The bit pattern of an operand of a signed `w`-bit type: a decimal in the signed range, or a hexadecimal no wider
than the type; refused otherwise (R89; log entry 22). -/
def signedPattern (w : Nat) : Literal → Option (BitVec w)
  | .dec false n => if n < 2 ^ (w - 1) then some (BitVec.ofNat w n) else none
  | .dec true n  => if n ≤ 2 ^ (w - 1) then some (BitVec.ofInt w (-(n : Int))) else none
  | .hex n       => if n < 2 ^ w then some (BitVec.ofNat w n) else none

/-- The bit pattern of an unsigned `w`-bit field of `.cmd` (R88; log entry 22). -/
def unsignedPattern (w : Nat) : Literal → Option (BitVec w)
  | .dec false n => if n < 2 ^ w then some (BitVec.ofNat w n) else none
  | .dec true _  => none
  | .hex n       => if n < 2 ^ w then some (BitVec.ofNat w n) else none

/-- The operand of `bool.enc`: `true`, `false`, `1` or `0`, nothing else (R88, R89). -/
def boolPattern : Arg → Option Word64
  | .tru                 => some 1#64
  | .fls                 => some 0#64
  | .lit (.dec false 1)  => some 1#64
  | .lit (.dec false 0)  => some 0#64
  | .lit _               => none

/-- The operand of the other encode mnemonics (R88, R89). -/
def signedArg (w : Nat) : Arg → Option Word64
  | .lit l => (signedPattern w l).map zext64
  | .tru   => none
  | .fls   => none

/-- The one command a line assembles to, or a refusal (R88 to R90). -/
def assemble : Line → Option Command
  | .mnem .boolEnc (some a)    => (boolPattern a).map fun x => ⟨0x00#8, x⟩
  | .mnem .byteEnc (some a)    => (signedArg 8 a).map fun x => ⟨0x01#8, x⟩
  | .mnem .varintEnc (some a)  => (signedArg 32 a).map fun x => ⟨0x02#8, x⟩
  | .mnem .varlongEnc (some a) => (signedArg 64 a).map fun x => ⟨0x03#8, x⟩
  | .mnem .boolDec none        => some ⟨0x08#8, 0#64⟩
  | .mnem .byteDec none        => some ⟨0x09#8, 0#64⟩
  | .mnem .varintDec none      => some ⟨0x0A#8, 0#64⟩
  | .mnem .varlongDec none     => some ⟨0x0B#8, 0#64⟩
  | .cmd o x                   => (unsignedPattern 8 o).bind fun p => (unsignedPattern 64 x).map fun q => ⟨p, q⟩
  | .mnem .boolEnc none        => none
  | .mnem .byteEnc none        => none
  | .mnem .varintEnc none      => none
  | .mnem .varlongEnc none     => none
  | .mnem .boolDec (some _)    => none
  | .mnem .byteDec (some _)    => none
  | .mnem .varintDec (some _)  => none
  | .mnem .varlongDec (some _) => none

/-- The signed value of a bit pattern as a decimal literal (R91). -/
def signedLiteral {w : Nat} (p : BitVec w) : Literal :=
  if p.msb then .dec true (2 ^ w - p.toNat) else .dec false p.toNat

/-- A command printed raw (R91). -/
def rawLine (c : Command) : Line := .cmd (.hex c.op.toNat) (.hex c.operand.toNat)

/-- The mnemonic form of a legal command (R88, R91). -/
def mnemonicLine : Instr → Line
  | .boolEnc x    => .mnem .boolEnc (some (if x.getLsbD 0 then .tru else .fls))
  | .byteEnc x    => .mnem .byteEnc (some (.lit (signedLiteral (lowBits 8 x))))
  | .varintEnc x  => .mnem .varintEnc (some (.lit (signedLiteral (lowBits 32 x))))
  | .varlongEnc x => .mnem .varlongEnc (some (.lit (signedLiteral x)))
  | .boolDec _    => .mnem .boolDec none
  | .byteDec _    => .mnem .byteDec none
  | .varintDec _  => .mnem .varintDec none
  | .varlongDec _ => .mnem .varlongDec none

/-- The disassembler (R91): a legal command by its mnemonic, unless OPERAND has a bit the command ignores; that one
and every illegal command as `.cmd`. -/
def disassemble (c : Command) : Line :=
  match decode c with
  | .ok i => if i.canonical then mnemonicLine i else rawLine c
  | .error _ => rawLine c

/-! ## Text -/

/-- The digits of `n` in base `b`, at least `least` of them and at most `fuel`, most significant first. -/
def digits (b : Nat) : (fuel least n : Nat) → List Nat
  | 0, _, _ => []
  | fuel + 1, least, n =>
    if n = 0 ∧ least = 0 then [] else digits b fuel (least - 1) (n / b) ++ [n % b]

/-- A digit character; hexadecimal digits above 9 are capitals, as in 95_test_vectors.md (log entry 22). -/
def digitChar (d : Nat) : Char := if d < 10 then Char.ofNat (48 + d) else Char.ofNat (55 + d)

/-- The value of a digit character in base 10 or 16. -/
def digitValue (b : Nat) (c : Char) : Option Nat :=
  let n := c.toNat
  let d := if 48 ≤ n ∧ n < 58 then some (n - 48)
    else if 65 ≤ n ∧ n < 71 then some (n - 55)
    else if 97 ≤ n ∧ n < 103 then some (n - 87)
    else none
  d.filter (· < b)

/-- The text of each mnemonic (R88). -/
def Mnemonic.text : Mnemonic → List Char
  | .boolEnc    => "bool.enc".toList
  | .byteEnc    => "byte.enc".toList
  | .varintEnc  => "varint.enc".toList
  | .varlongEnc => "varlong.enc".toList
  | .boolDec    => "bool.dec".toList
  | .byteDec    => "byte.dec".toList
  | .varintDec  => "varint.dec".toList
  | .varlongDec => "varlong.dec".toList

/-- The mnemonic a word names. -/
def mnemonicOf (t : List Char) : Option Mnemonic :=
  [.boolEnc, .byteEnc, .varintEnc, .varlongEnc, .boolDec, .byteDec, .varintDec, .varlongDec].find?
    fun m => m.text == t

/-- A hexadecimal literal with at least `least` digits (R91). -/
def hexText (least n : Nat) : List Char := ['0', 'x'] ++ (digits 16 16 least n).map digitChar

/-- A literal's text; a hexadecimal one is printed with at least `least` digits. -/
def Literal.text (least : Nat) : Literal → List Char
  | .dec negative n => (if negative then ['-'] else []) ++ (digits 10 20 1 n).map digitChar
  | .hex n => hexText least n

/-- An operand's text (R88). -/
def Arg.text : Arg → List Char
  | .tru   => "true".toList
  | .fls   => "false".toList
  | .lit l => l.text 1

/-- A line's text (R88), with the raw form `.cmd 0xNN, 0x<16 hex digits>` of R91. -/
def Line.text : Line → List Char
  | .mnem m none     => m.text
  | .mnem m (some a) => m.text ++ [' '] ++ a.text
  | .cmd o x         => ".cmd ".toList ++ o.text 2 ++ [',', ' '] ++ x.text 16

/-- The text of a line up to the `;` that starts a comment (R88). -/
def stripComment (t : List Char) : List Char := t.takeWhile (· != ';')

/-- The words of a line: maximal runs of characters other than blanks and commas, and each comma by itself. `word`
is the run being read. -/
def wordsFrom (word : List Char) : List Char → List (List Char)
  | [] => if word.isEmpty then [] else [word]
  | c :: cs =>
    if c = ' ' ∨ c = '\t' ∨ c = ',' then
      (if word.isEmpty then [] else [word]) ++ (if c = ',' then [[',']] else []) ++ wordsFrom [] cs
    else wordsFrom (word ++ [c]) cs

/-- The number a string of digits spells in base `b`, `acc` being the part read; a `_` between digits is skipped (log
entry 22). -/
def numberFrom (b : Nat) (acc : Nat) : List Char → Option Nat
  | [] => some acc
  | c :: cs =>
    if c = '_' then numberFrom b acc cs
    else (digitValue b c).bind fun d => numberFrom b (acc * b + d) cs

/-- The number a non-empty string of digits spells; it begins with a digit. Leading zeros are taken in either base, so
`bool.enc 01` is `bool.enc 1`: R89 does not say (DESIGN CHOICE, log entry 22). -/
def number (b : Nat) : List Char → Option Nat
  | [] => none
  | c :: cs => (digitValue b c).bind fun d => numberFrom b d cs

/-- The literal a word spells (R89). -/
def literalOf : List Char → Option Literal
  | '0' :: 'x' :: ds => (number 16 ds).map .hex
  | '-' :: ds        => (number 10 ds).map (.dec true)
  | ds               => (number 10 ds).map (.dec false)

/-- The operand a word spells (R88, R89). -/
def argOf (t : List Char) : Option Arg :=
  if t = "true".toList then some .tru
  else if t = "false".toList then some .fls
  else (literalOf t).map .lit

/-- The line a list of words spells; none if they spell no line. -/
def lineOfWords : List (List Char) → Option Line
  | [m] => (mnemonicOf m).map fun m => .mnem m none
  | [m, a] => (mnemonicOf m).bind fun m => (argOf a).map fun a => .mnem m (some a)
  | [k, o, comma, x] =>
    if k = ".cmd".toList ∧ comma = [','] then
      (literalOf o).bind fun o => (literalOf x).map fun x => .cmd o x
    else none
  | _ => none

/-- Assembling the text of one line: a blank or comment line gives no command, a line the assembler refuses gives
`none` (R88 to R90). -/
def assembleText (t : List Char) : Option (List Command) :=
  match wordsFrom [] (stripComment t) with
  | [] => some []
  | ws => (lineOfWords ws).bind fun l => (assemble l).map fun c => [c]

/-- A program's text is a list of lines; a program is the list of commands the host offers in order (R88, R92). -/
def assembleProgram : List (List Char) → Option (List Command)
  | [] => some []
  | t :: ts => (assembleText t).bind fun cs => (assembleProgram ts).map fun rest => cs ++ rest

/-- The disassembler's text of a command (R91). -/
def disassembleText (c : Command) : List Char := (disassemble c).text

end Sys2Proof.Machine
end

