-- ==== Sys2Proof/Machine/HostPort.lean ====
section
/-! DEFINITION. What the host can read (10_state.md R31): STATUS, RESULT and IOCAUSE, at any time. A reading is a
function of the state and no step, so it changes nothing. -/

namespace Sys2Proof.Machine

open Sys2Proof.Config (IoCause)

/-- Reading STATUS (R24, R31). -/
def readStatus (s : State) : BitVec 16 := s.status.word

/-- Reading RESULT (R31, R32): while VALID = 0 this is an older value, or the power-on value (log entry 2). -/
def readResult (s : State) : Word64 := s.result

/-- Reading IOCAUSE (R31, R33): meaningful only while ERR = IO and DONE = 1. -/
def readIocause (s : State) : IoCause := s.iocause

/-- The command port is ready: `BUSY = 0` (R25, R214). -/
def commandReady (s : State) : Bool := !s.status.busy

/-- The value of the last command, a successful decode; none while VALID = 0 (R27, R215). -/
def resultValue (s : State) : Option Word64 := if s.status.valid then some s.result else none

/-- The failure of the last command; none unless it ended with ERR = IO (R33, R213). -/
def failureValue (s : State) : Option IoCause :=
  if s.status.done && (s.status.err == .io) then some s.iocause else none

end Sys2Proof.Machine
end

