-- ==== Sys2Proof/Safety.lean ====
section
/-! DEFINITION. What claims about runs are made of: the invariants of 10_state.md R39 and what they rest on, a run
without a reset, and the byte sequences a decode may meet (30_encoding.md R85). -/

namespace Sys2Proof.Machine

open Sys2Proof.Config (IoCause)

/-- The facts R39 states of every reachable state, word for word. -/
structure SpecInvariant (s : State) : Prop where
  busy_outcome : s.status.busy = true → s.status.done = false ∧ s.status.valid = false ∧ s.status.err = .none
  valid_done : s.status.valid = true → s.status.done = true ∧ s.status.err = .none
  count_le : s.status.count.toNat ≤ 10
  varint_count : s.fsm = .run → s.op = 0x02#8 ∨ s.op = 0x0A#8 → s.status.count.toNat ≤ 4
  varlong_count : s.fsm = .run → s.op = 0x03#8 ∨ s.op = 0x0B#8 → s.status.count.toNat ≤ 9
  varint_rem : s.fsm = .run → s.op = 0x02#8 → s.rem.extractLsb' 32 32 = 0#32
  varint_acc : s.fsm = .run → s.op = 0x0A#8 → s.acc.extractLsb' 32 32 = 0#32

/-- The invariant every step keeps: R39, that BUSY equals FSM = RUN (R25, R34), that OP is legal while RUN (R35),
how far REM and ACC have come (R103, R106), and what each outcome leaves in STATUS and RESULT (R32, R181 to R183). -/
structure Inv (s : State) : Prop where
  busy_iff_run : s.status.busy = true ↔ s.fsm = .run
  busy_outcome : s.status.busy = true → s.status.done = false ∧ s.status.valid = false ∧ s.status.err = .none
  valid_done : s.status.valid = true → s.status.done = true ∧ s.status.err = .none
  count_le : s.status.count.toNat ≤ 10
  op_legal : s.fsm = .run → legal s.op = true
  fixed_count : s.fsm = .run → s.op = 0x00#8 ∨ s.op = 0x01#8 ∨ s.op = 0x08#8 ∨ s.op = 0x09#8 →
    s.status.count = 0#4
  varint_enc : s.fsm = .run → s.op = 0x02#8 →
    s.status.count.toNat ≤ 4 ∧ s.rem.toNat < 2 ^ (32 - 7 * s.status.count.toNat)
  varlong_enc : s.fsm = .run → s.op = 0x03#8 →
    s.status.count.toNat ≤ 9 ∧ s.rem.toNat < 2 ^ (64 - 7 * s.status.count.toNat)
  varint_dec : s.fsm = .run → s.op = 0x0A#8 →
    s.status.count.toNat ≤ 4 ∧ s.acc.toNat < 2 ^ (7 * s.status.count.toNat)
  varlong_dec : s.fsm = .run → s.op = 0x0B#8 →
    s.status.count.toNat ≤ 9 ∧ s.acc.toNat < 2 ^ (7 * s.status.count.toNat)
  fresh : s.status.busy = false → s.status.done = false → s.status = Status.cleared
  tooBig_outcome : s.status.err = .tooBig →
    s.status.done = true ∧ (s.status.count = 5#4 ∨ s.status.count = 10#4)
  io_outcome : s.status.err = .io → s.status.done = true ∧ s.status.count.toNat ≤ 9
  illegal_outcome : s.status.err = .illegalCmd → s.status.done = true ∧ s.status.count = 0#4
  valid_result : s.status.valid = true →
    (s.op = 0x08#8 ∧ s.result.toNat ≤ 1) ∨ (s.op = 0x09#8 ∧ -128 ≤ s.result.toInt ∧ s.result.toInt < 128) ∨
    (s.op = 0x0A#8 ∧ -2147483648 ≤ s.result.toInt ∧ s.result.toInt < 2147483648) ∨ s.op = 0x0B#8

/-- The block has just been reset or powered on: FSM and STATUS are as R40 says, every register a reset does not
write holds any value, and the environment is any. -/
abbrev JustReset (s : State) : Prop := s.fsm = .idle ∧ s.status = Status.cleared

/-- The reset input is not asserted at any of the next `n` steps (R210). -/
abbrev NotReset (n : Nat) (s : State) : Prop := ∀ r ∈ s.resetInput.take n, r = .deasserted

/-- A safe step: the machine goes on (R184). -/
def SafeStep (s : State) : Prop := ∃ t, step s = .next t

/-- "Terminated at n" with n at most MAX (R85): all bytes but the last have the continuation bit, the last has not. -/
def Terminated (max : Nat) (bytes : List Byte) : Prop :=
  ∃ init last, bytes = init ++ [last] ∧ (∀ b ∈ init, continuation b = true) ∧ continuation last = false ∧
    bytes.length ≤ max

/-- The same machine and environment with every failure value relabelled by `f`. The type IoCause is a parameter that
no rule inspects (R33; 93_implementation_defined.md entry 4), so a run must not tell the two apart. -/
def State.relabel (f : IoCause → IoCause) (s : State) : State :=
  { s with
    iocause := f s.iocause
    srcAnswers := s.srcAnswers.map fun a => match a with
      | .byte b => .byte b
      | .fail c => .fail (f c)
    snkAnswers := s.snkAnswers.map fun a => match a with
      | .ack => .ack
      | .fail c => .fail (f c) }

/-- Every byte has the continuation bit (R85, too long or cut short). -/
abbrev AllContinued (bytes : List Byte) : Prop := ∀ b ∈ bytes, continuation b = true

end Sys2Proof.Machine
end

