-- ==== Sys2Proof/Certificates/Slice0/Obligations.lean ====
section
/-! DEFINITION. The statements about the block, each from a numbered rule of spec/ or derived from named rules. -/

open Sys2Proof Sys2Proof.Machine
open Sys2Proof.Config (IoCause)

/-! ## The command encoding -/

/-- R70, R74, R75: decoding an encoded instruction gives it back, with every bit of OPERAND, both on the command port
and in the table's bit numbering (the place of OPERAND above bit 7 of a table word is the model's choice, log entry
13). -/
def Obligations.DecodeOfEncodeIsTheInstruction : Prop :=
  ∀ i : Instr, i.wellFormed = true →
    decode (encode i) = .ok i ∧ decodeTableWord 72 (encode i).toTableWord = some i

/-- R75: a command decodes to an instruction only if it is that instruction's own command, so no two commands share a
meaning and no bit is dropped. -/
def Obligations.EncodeOfDecodeIsTheCommand : Prop :=
  ∀ (c : Command) (i : Instr), decode c = .ok i → encode i = c

/-- R75: the order of the decoder's checks, and its totality; R76: the eight legal opcodes. -/
def Obligations.DecoderIsTotalAndRejectsByName : Prop :=
  ∀ c : Command,
    (c.op.extractLsb' 4 4 ≠ 0#4 → decode c = .error .rsvNonZero) ∧
    (c.op.extractLsb' 4 4 = 0#4 → c.op.getLsbD 2 = true → decode c = .error .reservedType) ∧
    (c.op.extractLsb' 4 4 = 0#4 → c.op.getLsbD 2 = false →
      c.op ∈ [0x00#8, 0x01#8, 0x02#8, 0x03#8, 0x08#8, 0x09#8, 0x0A#8, 0x0B#8] ∧
      ∃ i, decode c = .ok i ∧ i.opcode = c.op ∧ i.operand = c.operand) ∧
    (legal c.op = true ↔ c.op.extractLsb' 4 4 = 0#4 ∧ c.op.getLsbD 2 = false)

/-- R74: the eight words of the opcode map, written out bit by bit. -/
def Obligations.OpcodeMapWordsDecode : Prop :=
  decodeTableWord 8 0b00000000 = some (.boolEnc 0#64) ∧ decodeTableWord 8 0b00000001 = some (.byteEnc 0#64) ∧
  decodeTableWord 8 0b00000010 = some (.varintEnc 0#64) ∧ decodeTableWord 8 0b00000011 = some (.varlongEnc 0#64) ∧
  decodeTableWord 8 0b00001000 = some (.boolDec 0#64) ∧ decodeTableWord 8 0b00001001 = some (.byteDec 0#64) ∧
  decodeTableWord 8 0b00001010 = some (.varintDec 0#64) ∧ decodeTableWord 8 0b00001011 = some (.varlongDec 0#64)

/-! ## Steps -/

/-- R43, R63: in IDLE, with reset not asserted, a step takes the oldest offer, and a legal one runs as its
instruction does. -/
def Obligations.IdleStepRunsTheOfferedCommand : Prop :=
  ∀ (s : State) (c : Command) (later : List Command) (i : Instr),
    NotReset 1 s → s.fsm = .idle → s.offers = c :: later → decode c = .ok i →
    step s = exec i { s with offers := later, resetInput := s.resetInput.tail }

/-- R44: in RUN, with reset not asserted, a step runs the body OP selects, whatever OPERAND the command came with. -/
def Obligations.RunStepRunsTheCommandInProgress : Prop :=
  ∀ (s : State) (operand : Word64) (i : Instr),
    NotReset 1 s → s.fsm = .run → decode ⟨s.op, operand⟩ = .ok i →
    step s = exec i { s with resetInput := s.resetInput.tail }

/-- The host's placement of a table word: the very next step accepts that instruction (the model's convention, log
entries 13 and 14). -/
def Obligations.PlacedWordIsAcceptedNext : Prop :=
  ∀ (s : State) (nbits w : Nat) (i : Instr), decodeTableWord nbits w = some i →
    step (s.withFetchWord nbits w) =
      exec i { s with fsm := .idle, status := { s.status with busy := false } }

/-- R164: an illegal command completes in its accept step with ILLEGAL_CMD; no port transaction, and OP, REM, ACC,
RESULT and IOCAUSE keep their values. -/
def Obligations.IllegalCommandCompletesAtOnce : Prop :=
  ∀ (s : State) (c : Command) (later : List Command),
    NotReset 1 s → s.fsm = .idle → s.status.busy = false → s.offers = c :: later → legal c.op = false →
    step s = .next { s with
      offers := later
      resetInput := s.resetInput.tail
      status := { busy := false, done := true, valid := false, err := .illegalCmd, count := 0#4 } }

/-- R210, R40: a reset is one step; FSM and STATUS take their reset values, and RESULT, IOCAUSE, OP, REM and ACC are
unchanged. No byte is acknowledged, the host still holds what it offers, and the ports have answered nothing, but for
the answer the port side may lose with a withdrawn transaction (R211; ResetWithdrawsOneTransaction). -/
def Obligations.ResetStepSetsTheResetValues : Prop :=
  ∀ (s : State) (answerLost : Bool) (later : List ResetSample),
    s.resetInput = .asserted answerLost :: later →
    ∃ t, step s = .next t ∧ t.fsm = .idle ∧ readStatus t = 0x0000#16 ∧
      t.status.busy = false ∧ t.status.done = false ∧ t.status.valid = false ∧ t.status.err = .none ∧
      t.status.count = 0#4 ∧ t.result = s.result ∧ t.iocause = s.iocause ∧ t.op = s.op ∧ t.rem = s.rem ∧
      t.acc = s.acc ∧ t.acked = s.acked ∧ t.offers = s.offers ∧ t.resetInput = later ∧
      (s.fsm = .idle ∨ answerLost = false → t.srcAnswers = s.srcAnswers ∧ t.snkAnswers = s.snkAnswers)

/-- R211: what a reset does to the ports: in RUN, if the reset sample says so, the first answer of the port DIR selects is
lost, if there is one, and the other port keeps all of its answers; in IDLE, or if the sample does not say so, no answer
is lost. That the sample decides it is the model's choice (log entry 11; 93_implementation_defined.md entry 8 leaves the
port side any value). -/
def Obligations.ResetWithdrawsOneTransaction : Prop :=
  ∀ (s t : State) (answerLost : Bool) (later : List ResetSample),
    s.resetInput = .asserted answerLost :: later → step s = .next t →
    (s.fsm = .run → answerLost = true → s.op.getLsbD 3 = true →
      t.srcAnswers = s.srcAnswers.tail ∧ t.snkAnswers = s.snkAnswers) ∧
    (s.fsm = .run → answerLost = true → s.op.getLsbD 3 = false →
      t.srcAnswers = s.srcAnswers ∧ t.snkAnswers = s.snkAnswers.tail) ∧
    (s.fsm = .idle ∨ answerLost = false → t.srcAnswers = s.srcAnswers ∧ t.snkAnswers = s.snkAnswers)

/-- R40: the reset values the spec gives, in State.reset (the values of RESULT, IOCAUSE, OP, REM and ACC there are
the model's choice, log entries 2 to 6, and are not stated). -/
def Obligations.ResetStateIsIdleWithStatusZero : Prop :=
  State.reset.fsm = .idle ∧ readStatus State.reset = 0x0000#16 ∧ commandReady State.reset = true ∧
  resultValue State.reset = none ∧ failureValue State.reset = none

/-- R44, R52: with no answer from its port the block holds in RUN and nothing changes; with no offer it stays in
IDLE. That a held block answers a next state is the model's choice (log entry 9). -/
def Obligations.BlockHoldsWithoutAnAnswer : Prop :=
  ∀ s : State, Inv s → NotReset 1 s →
    (s.fsm = .idle ∧ s.offers = []) ∨ (s.fsm = .run ∧ s.op.getLsbD 3 = false ∧ s.snkAnswers = []) ∨
      (s.fsm = .run ∧ s.op.getLsbD 3 = true ∧ s.srcAnswers = []) →
    step s = .next { s with resetInput := s.resetInput.tail }

/-- R214: while the block is RUN, what the host offers changes nothing, and the host still holds all of it. -/
def Obligations.OffersWhileBusyHaveNoEffect : Prop :=
  ∀ (s t : State), s.fsm = .run → step s = .next t →
    t.offers = s.offers ∧ ∀ others, step { s with offers := others } = .next { t with offers := others }

/-! ## The fixed-width commands -/

/-- R160: BOOL.ENC. -/
def Obligations.BoolEncWritesBitZero : Prop :=
  ∀ (x : Word64) (s : State),
    (s.fsm = .idle → exec (.boolEnc x) s = .next { s with
      status := { busy := true, done := false, valid := false, err := .none, count := 0#4 }
      op := 0x00#8, rem := BitVec.ofNat 64 (x.toNat % 2), fsm := .run }) ∧
    (∀ later, s.fsm = .run → s.snkAnswers = .ack :: later → exec (.boolEnc x) s = .next { s with
      status := { s.status with busy := false, done := true, count := 1#4 }
      fsm := .idle, snkAnswers := later
      acked := s.acked ++ [if s.rem.toNat % 2 = 1 then 0x01#8 else 0x00#8] }) ∧
    (∀ c later, s.fsm = .run → s.snkAnswers = .fail c :: later → exec (.boolEnc x) s = .next { s with
      status := { s.status with busy := false, done := true, err := .io }
      iocause := c, fsm := .idle, snkAnswers := later })

/-- R162: BYTE.ENC. -/
def Obligations.ByteEncWritesTheLowByte : Prop :=
  ∀ (x : Word64) (s : State),
    (s.fsm = .idle → exec (.byteEnc x) s = .next { s with
      status := { busy := true, done := false, valid := false, err := .none, count := 0#4 }
      op := 0x01#8, rem := BitVec.ofNat 64 (x.toNat % 256), fsm := .run }) ∧
    (∀ later, s.fsm = .run → s.snkAnswers = .ack :: later → exec (.byteEnc x) s = .next { s with
      status := { s.status with busy := false, done := true, count := 1#4 }
      fsm := .idle, snkAnswers := later, acked := s.acked ++ [BitVec.ofNat 8 (s.rem.toNat % 256)] }) ∧
    (∀ c later, s.fsm = .run → s.snkAnswers = .fail c :: later → exec (.byteEnc x) s = .next { s with
      status := { s.status with busy := false, done := true, err := .io }
      iocause := c, fsm := .idle, snkAnswers := later })

/-- R161: BOOL.DEC. -/
def Obligations.BoolDecReadsZeroAsFalse : Prop :=
  ∀ (x : Word64) (s : State),
    (s.fsm = .idle → exec (.boolDec x) s = .next { s with
      status := { busy := true, done := false, valid := false, err := .none, count := 0#4 }
      op := 0x08#8, acc := 0#64, fsm := .run }) ∧
    (∀ b later, s.fsm = .run → s.srcAnswers = .byte b :: later → exec (.boolDec x) s = .next { s with
      status := { s.status with busy := false, done := true, valid := true, count := 1#4 }
      result := if b.toNat = 0 then 0#64 else 1#64
      fsm := .idle, srcAnswers := later }) ∧
    (∀ c later, s.fsm = .run → s.srcAnswers = .fail c :: later → exec (.boolDec x) s = .next { s with
      status := { s.status with busy := false, done := true, err := .io }
      iocause := c, fsm := .idle, srcAnswers := later })

/-- R163: BYTE.DEC. -/
def Obligations.ByteDecReadsTheSignedByte : Prop :=
  ∀ (x : Word64) (s : State),
    (s.fsm = .idle → exec (.byteDec x) s = .next { s with
      status := { busy := true, done := false, valid := false, err := .none, count := 0#4 }
      op := 0x09#8, acc := 0#64, fsm := .run }) ∧
    (∀ b later, s.fsm = .run → s.srcAnswers = .byte b :: later → exec (.byteDec x) s = .next { s with
      status := { s.status with busy := false, done := true, valid := true, count := 1#4 }
      result := BitVec.ofInt 64 b.toInt
      fsm := .idle, srcAnswers := later }) ∧
    (∀ c later, s.fsm = .run → s.srcAnswers = .fail c :: later → exec (.byteDec x) s = .next { s with
      status := { s.status with busy := false, done := true, err := .io }
      iocause := c, fsm := .idle, srcAnswers := later })

/-- R165: only 0x00 and 0x01 survive a bool.dec followed by a bool.enc of the result; every other byte comes back as
0x01. The two commands run one after the other, from any IDLE state. -/
def Obligations.BoolDecodeThenEncode : Prop :=
  ∀ (b : Byte) (x : Word64) (s : State) (src : List SrcAnswer) (snk : List SnkAnswer),
    s.fsm = .idle → s.srcAnswers = .byte b :: src → s.snkAnswers = .ack :: snk →
    ∃ t u v w, exec (.boolDec x) s = .next t ∧ exec (.boolDec x) t = .next u ∧
      exec (.boolEnc u.result) u = .next v ∧ exec (.boolEnc u.result) v = .next w ∧
      u.status.valid = true ∧ u.result = (if b.toNat = 0 then 0#64 else 1#64) ∧ w.status.valid = false ∧
      w.acked = s.acked ++ [if b.toNat = 0 then 0x00#8 else 0x01#8]

/-- R166: byte.enc then byte.dec of the byte written gives the signed byte back, and byte.dec then byte.enc of the
result writes the raw byte again. -/
def Obligations.ByteCodecIsTheIdentity : Prop :=
  ∀ (b : Byte) (x : Word64) (s : State) (src : List SrcAnswer) (snk : List SnkAnswer),
    s.fsm = .idle → s.srcAnswers = .byte b :: src → s.snkAnswers = .ack :: snk →
    (∃ t u v w, exec (.byteDec x) s = .next t ∧ exec (.byteDec x) t = .next u ∧
      exec (.byteEnc u.result) u = .next v ∧ exec (.byteEnc u.result) v = .next w ∧ w.acked = s.acked ++ [b]) ∧
    (x.toNat % 256 = b.toNat →
      ∃ t u v w, exec (.byteEnc x) s = .next t ∧ exec (.byteEnc x) t = .next u ∧ u.acked = s.acked ++ [b] ∧
        exec (.byteDec x) u = .next v ∧ exec (.byteDec x) v = .next w ∧ w.result.toInt = b.toInt)

/-! ## VarInt and VarLong, one step -/

/-- R121, R43: acceptance of VARINT.ENC, and R120 at W = 32: one byte of the low 7 bits, the continuation bit while
anything remains, completion when nothing does; an Io leaves REM and COUNT. -/
def Obligations.VarintEncStep : Prop :=
  ∀ (x : Word64) (s : State),
    (s.fsm = .idle → exec (.varintEnc x) s = .next { s with
      status := { busy := true, done := false, valid := false, err := .none, count := 0#4 }
      op := 0x02#8, rem := BitVec.ofNat 64 (x.toNat % 2 ^ 32), fsm := .run }) ∧
    (∀ later, s.fsm = .run → s.snkAnswers = .ack :: later → s.rem.toNat % 2 ^ 32 < 128 →
      exec (.varintEnc x) s = .next { s with
        status := { s.status with busy := false, done := true, count := s.status.count + 1#4 }
        rem := 0#64, fsm := .idle, snkAnswers := later
        acked := s.acked ++ [BitVec.ofNat 8 (s.rem.toNat % 2 ^ 32)] }) ∧
    (∀ later, s.fsm = .run → s.snkAnswers = .ack :: later → 128 ≤ s.rem.toNat % 2 ^ 32 →
      exec (.varintEnc x) s = .next { s with
        status := { s.status with count := s.status.count + 1#4 }
        rem := BitVec.ofNat 64 (s.rem.toNat % 2 ^ 32 / 128), snkAnswers := later
        acked := s.acked ++ [BitVec.ofNat 8 (128 + s.rem.toNat % 128)] }) ∧
    (∀ c later, s.fsm = .run → s.snkAnswers = .fail c :: later → exec (.varintEnc x) s = .next { s with
      status := { s.status with busy := false, done := true, err := .io }
      iocause := c, fsm := .idle, snkAnswers := later })

/-- R122, R43: acceptance of VARLONG.ENC, and R120 at W = 64. -/
def Obligations.VarlongEncStep : Prop :=
  ∀ (x : Word64) (s : State),
    (s.fsm = .idle → exec (.varlongEnc x) s = .next { s with
      status := { busy := true, done := false, valid := false, err := .none, count := 0#4 }
      op := 0x03#8, rem := x, fsm := .run }) ∧
    (∀ later, s.fsm = .run → s.snkAnswers = .ack :: later → s.rem.toNat < 128 →
      exec (.varlongEnc x) s = .next { s with
        status := { s.status with busy := false, done := true, count := s.status.count + 1#4 }
        rem := 0#64, fsm := .idle, snkAnswers := later
        acked := s.acked ++ [BitVec.ofNat 8 s.rem.toNat] }) ∧
    (∀ later, s.fsm = .run → s.snkAnswers = .ack :: later → 128 ≤ s.rem.toNat →
      exec (.varlongEnc x) s = .next { s with
        status := { s.status with count := s.status.count + 1#4 }
        rem := BitVec.ofNat 64 (s.rem.toNat / 128), snkAnswers := later
        acked := s.acked ++ [BitVec.ofNat 8 (128 + s.rem.toNat % 128)] }) ∧
    (∀ c later, s.fsm = .run → s.snkAnswers = .fail c :: later → exec (.varlongEnc x) s = .next { s with
      status := { s.status with busy := false, done := true, err := .io }
      iocause := c, fsm := .idle, snkAnswers := later })

/-- R141, R43: acceptance of VARINT.DEC, and R140 at W = 32, MAX = 5, from the states R39 allows (COUNT at most 4,
the groups gathered so far below bit 7 COUNT): a clear continuation bit completes, also at index 4; a set one goes
on, or raises TOO_BIG at index 4; an Io leaves ACC and COUNT. -/
def Obligations.VarintDecStep : Prop :=
  ∀ (x : Word64) (s : State),
    (s.fsm = .idle → exec (.varintDec x) s = .next { s with
      status := { busy := true, done := false, valid := false, err := .none, count := 0#4 }
      op := 0x0A#8, acc := 0#64, fsm := .run }) ∧
    (∀ (b : Byte) later (acc : Nat), s.fsm = .run → s.srcAnswers = .byte b :: later → s.status.count.toNat ≤ 4 →
      s.acc.toNat < 2 ^ (7 * s.status.count.toNat) →
      acc = (s.acc.toNat + b.toNat % 128 * 2 ^ (7 * s.status.count.toNat)) % 2 ^ 32 →
      (b.toNat < 128 → exec (.varintDec x) s = .next { s with
        status := { s.status with busy := false, done := true, valid := true, count := s.status.count + 1#4 }
        result := BitVec.ofInt 64 (BitVec.ofNat 32 acc).toInt
        acc := BitVec.ofNat 64 acc, fsm := .idle, srcAnswers := later }) ∧
      (128 ≤ b.toNat → s.status.count.toNat < 4 → exec (.varintDec x) s = .next { s with
        status := { s.status with count := s.status.count + 1#4 }
        acc := BitVec.ofNat 64 acc, srcAnswers := later }) ∧
      (128 ≤ b.toNat → s.status.count.toNat = 4 → exec (.varintDec x) s = .next { s with
        status := { s.status with busy := false, done := true, err := .tooBig, count := 5#4 }
        acc := BitVec.ofNat 64 acc, fsm := .idle, srcAnswers := later })) ∧
    (∀ c later, s.fsm = .run → s.srcAnswers = .fail c :: later → exec (.varintDec x) s = .next { s with
      status := { s.status with busy := false, done := true, err := .io }
      iocause := c, fsm := .idle, srcAnswers := later })

/-- R142, R43: acceptance of VARLONG.DEC, and R140 at W = 64, MAX = 10, from the states R39 allows. -/
def Obligations.VarlongDecStep : Prop :=
  ∀ (x : Word64) (s : State),
    (s.fsm = .idle → exec (.varlongDec x) s = .next { s with
      status := { busy := true, done := false, valid := false, err := .none, count := 0#4 }
      op := 0x0B#8, acc := 0#64, fsm := .run }) ∧
    (∀ (b : Byte) later (acc : Nat), s.fsm = .run → s.srcAnswers = .byte b :: later → s.status.count.toNat ≤ 9 →
      s.acc.toNat < 2 ^ (7 * s.status.count.toNat) →
      acc = (s.acc.toNat + b.toNat % 128 * 2 ^ (7 * s.status.count.toNat)) % 2 ^ 64 →
      (b.toNat < 128 → exec (.varlongDec x) s = .next { s with
        status := { s.status with busy := false, done := true, valid := true, count := s.status.count + 1#4 }
        result := BitVec.ofNat 64 acc
        acc := BitVec.ofNat 64 acc, fsm := .idle, srcAnswers := later }) ∧
      (128 ≤ b.toNat → s.status.count.toNat < 9 → exec (.varlongDec x) s = .next { s with
        status := { s.status with count := s.status.count + 1#4 }
        acc := BitVec.ofNat 64 acc, srcAnswers := later }) ∧
      (128 ≤ b.toNat → s.status.count.toNat = 9 → exec (.varlongDec x) s = .next { s with
        status := { s.status with busy := false, done := true, err := .tooBig, count := 10#4 }
        acc := BitVec.ofNat 64 acc, fsm := .idle, srcAnswers := later })) ∧
    (∀ c later, s.fsm = .run → s.srcAnswers = .fail c :: later → exec (.varlongDec x) s = .next { s with
      status := { s.status with busy := false, done := true, err := .io }
      iocause := c, fsm := .idle, srcAnswers := later })

/-- Where the model stops, both the model's choice outside every state a run reaches: OP naming no command while RUN (log
entry 15), and a byte arriving at a decode index of MAX or more, where R104 defines no DecStep (log entry 16). That it
stops nowhere else is ModelStopsNowhereElse. -/
def Obligations.WhereTheModelStops : Prop :=
  (∀ s : State, NotReset 1 s → s.fsm = .run → legal s.op = false → step s = .fault .opNotLegalInRun) ∧
  (∀ (x : Word64) (s : State) (b : Byte) (later : List SrcAnswer), s.fsm = .run → s.srcAnswers = .byte b :: later →
    (5 ≤ s.status.count.toNat → exec (.varintDec x) s = .fault .decStepIndexOutOfRange) ∧
    (10 ≤ s.status.count.toNat → exec (.varlongDec x) s = .fault .decStepIndexOutOfRange))

/-- R78, R79: the bits of OPERAND outside the slice change nothing, and a decode ignores OPERAND entirely. -/
def Obligations.IgnoredOperandBitsHaveNoEffect : Prop :=
  ∀ (x y : Word64) (s : State),
    (x.toNat % 2 = y.toNat % 2 → exec (.boolEnc x) s = exec (.boolEnc y) s) ∧
    (x.toNat % 2 ^ 8 = y.toNat % 2 ^ 8 → exec (.byteEnc x) s = exec (.byteEnc y) s) ∧
    (x.toNat % 2 ^ 32 = y.toNat % 2 ^ 32 → exec (.varintEnc x) s = exec (.varintEnc y) s) ∧
    exec (.boolDec x) s = exec (.boolDec y) s ∧ exec (.byteDec x) s = exec (.byteDec y) s ∧
    exec (.varintDec x) s = exec (.varintDec y) s ∧ exec (.varlongDec x) s = exec (.varlongDec y) s

/-! ## The shifter -/

/-- R102: the corner cases of EncStep, at both widths. -/
def Obligations.EncStepCornerCases : Prop :=
  (∀ r : BitVec 32, (r.toNat ≤ 0x7F → encStep r = ⟨BitVec.ofNat 8 r.toNat, 0#32, true⟩) ∧
    (0x80 ≤ r.toNat → (encStep r).last = false ∧ (encStep r).byte.getLsbD 7 = true ∧
      (r.toNat % 128 = 0 → (encStep r).byte = 0x80#8))) ∧
  (∀ r : BitVec 64, (r.toNat ≤ 0x7F → encStep r = ⟨BitVec.ofNat 8 r.toNat, 0#64, true⟩) ∧
    (0x80 ≤ r.toNat → (encStep r).last = false ∧ (encStep r).byte.getLsbD 7 = true ∧
      (r.toNat % 128 = 0 → (encStep r).byte = 0x80#8))) ∧
  encStep 0#32 = ⟨0x00#8, 0#32, true⟩ ∧ encStep 128#32 = ⟨0x80#8, 1#32, false⟩

/-- R103: after k steps the remaining value is the value shifted right by 7k with zeros, it is 0 after 5 steps at
width 32 and 10 at width 64, and the fifth (tenth) byte is at most 0x0F (0x01) with no continuation. -/
def Obligations.RemainingValueReachesZero : Prop :=
  (∀ (u : BitVec 32) (k : Nat), ((fun r => (encStep r).rem)^[k] u).toNat = u.toNat / 2 ^ (7 * k)) ∧
  (∀ (u : BitVec 64) (k : Nat), ((fun r => (encStep r).rem)^[k] u).toNat = u.toNat / 2 ^ (7 * k)) ∧
  (∀ u : BitVec 32, (fun r => (encStep r).rem)^[5] u = 0#32 ∧
    (encStep ((fun r => (encStep r).rem)^[4] u)).byte.toNat ≤ 0x0F) ∧
  (∀ u : BitVec 64, (fun r => (encStep r).rem)^[10] u = 0#64 ∧
    (encStep ((fun r => (encStep r).rem)^[9] u)).byte.toNat ≤ 0x01)

/-- R106: while the group lies wholly inside the width, it meets no earlier group, and the OR is an addition. -/
def Obligations.DecStepAddsADisjointGroup : Prop :=
  ∀ (w k : Nat) (acc : BitVec w) (b : Byte), 7 * k + 7 ≤ w → acc.toNat < 2 ^ (7 * k) →
    (decStep acc k b).toNat = acc.toNat + b.toNat % 128 * 2 ^ (7 * k)

/-- R107: at the last index only part of the group fits, b[3:0] at bits 31:28 or b[0] at bit 63; the rest is lost. -/
def Obligations.DecStepAtTheLastIndexLosesTheExcess : Prop :=
  (∀ (acc : BitVec 32) (b : Byte), acc.toNat < 2 ^ 28 →
    decStep acc 4 b = b.extractLsb' 0 4 ++ acc.extractLsb' 0 28) ∧
  (∀ (acc : BitVec 64) (b : Byte), acc.toNat < 2 ^ 63 →
    decStep acc 9 b = b.extractLsb' 0 1 ++ acc.extractLsb' 0 63)

/-- R109: EncStep and DecStep are inverse, at both widths. -/
def Obligations.ShifterRoundTrip : Prop :=
  (∀ u : BitVec 32, Terminated 5 (encBytes 5 u) ∧ decFold 0#32 0 (encBytes 5 u) = u) ∧
  (∀ u : BitVec 64, Terminated 10 (encBytes 10 u) ∧ decFold 0#64 0 (encBytes 10 u) = u)

/-- R58, R81, R83: the bytes of the shifter are the canonical encoding written without it, of the length R83 gives. -/
def Obligations.ShifterBytesAreCanonical : Prop :=
  (∀ u : BitVec 32, encBytes 5 u = canonicalBytes 5 u.toNat) ∧
  (∀ u : BitVec 64, encBytes 10 u = canonicalBytes 10 u.toNat)

/-- R83, R84, R124: the lengths of canonical encodings: 1 to MAX, 1 exactly below 2^7, MAX exactly when bit 28 (63) or
a higher one is set, and no encoding longer than one byte ends in 0x00. -/
def Obligations.CanonicalEncodingLengths : Prop :=
  (∀ u : BitVec 32, 1 ≤ encLength 5 u.toNat ∧ encLength 5 u.toNat ≤ 5 ∧
    (encLength 5 u.toNat = 1 ↔ u.toNat < 2 ^ 7) ∧ (encLength 5 u.toNat = 5 ↔ 2 ^ 28 ≤ u.toNat) ∧
    (canonicalBytes 5 u.toNat).length = encLength 5 u.toNat ∧
    (1 < encLength 5 u.toNat → (canonicalBytes 5 u.toNat).getLast? ≠ some 0x00#8)) ∧
  (∀ u : BitVec 64, 1 ≤ encLength 10 u.toNat ∧ encLength 10 u.toNat ≤ 10 ∧
    (encLength 10 u.toNat = 1 ↔ u.toNat < 2 ^ 7) ∧ (encLength 10 u.toNat = 10 ↔ 2 ^ 63 ≤ u.toNat) ∧
    (canonicalBytes 10 u.toNat).length = encLength 10 u.toNat ∧
    (1 < encLength 10 u.toNat → (canonicalBytes 10 u.toNat).getLast? ≠ some 0x00#8))

/-! ## Whole commands -/

/-- R123: a VARINT.ENC or VARLONG.ENC whose sink answers Ack to every write writes exactly the canonical encoding, in n
transfer steps after its acceptance, and completes with COUNT = n and ERR = NONE; RESULT, IOCAUSE, ACC and the source
are untouched. -/
def Obligations.EncodeWritesTheCanonicalEncoding : Prop :=
  ∀ (s : State) (x : Word64) (later : List Command) (snk : List SnkAnswer) (u n : Nat),
    s.fsm = .idle → s.snkAnswers = List.replicate n .ack ++ snk → NotReset (n + 1) s →
    (u = x.toNat % 2 ^ 32 → n = encLength 5 u → s.offers = ⟨0x02#8, x⟩ :: later →
      core.run (n + 1) s = .next { s with
        status := { busy := false, done := true, valid := false, err := .none, count := BitVec.ofNat 4 n }
        fsm := .idle, op := 0x02#8, rem := 0#64, offers := later, snkAnswers := snk
        resetInput := s.resetInput.drop (n + 1), acked := s.acked ++ canonicalBytes 5 u }) ∧
    (u = x.toNat → n = encLength 10 u → s.offers = ⟨0x03#8, x⟩ :: later →
      core.run (n + 1) s = .next { s with
        status := { busy := false, done := true, valid := false, err := .none, count := BitVec.ofNat 4 n }
        fsm := .idle, op := 0x03#8, rem := 0#64, offers := later, snkAnswers := snk
        resetInput := s.resetInput.drop (n + 1), acked := s.acked ++ canonicalBytes 10 u })

/-- R125: an encode whose k-th write fails has acknowledged exactly bytes 0 to k-1 of the canonical encoding, and ends
with COUNT = k, ERR = IO and IOCAUSE = c; the sink is asked for nothing more. -/
def Obligations.EncodeFailingAtWriteK : Prop :=
  ∀ (s : State) (x : Word64) (later : List Command) (snk : List SnkAnswer) (c : IoCause) (u k : Nat),
    s.fsm = .idle → s.snkAnswers = List.replicate k .ack ++ .fail c :: snk → NotReset (k + 2) s →
    (u = x.toNat % 2 ^ 32 → k < encLength 5 u → s.offers = ⟨0x02#8, x⟩ :: later →
      core.run (k + 2) s = .next { s with
        status := { busy := false, done := true, valid := false, err := .io, count := BitVec.ofNat 4 k }
        iocause := c, fsm := .idle, op := 0x02#8, rem := BitVec.ofNat 64 (u / 2 ^ (7 * k)), offers := later
        snkAnswers := snk, resetInput := s.resetInput.drop (k + 2)
        acked := s.acked ++ (canonicalBytes 5 u).take k }) ∧
    (u = x.toNat → k < encLength 10 u → s.offers = ⟨0x03#8, x⟩ :: later →
      core.run (k + 2) s = .next { s with
        status := { busy := false, done := true, valid := false, err := .io, count := BitVec.ofNat 4 k }
        iocause := c, fsm := .idle, op := 0x03#8, rem := BitVec.ofNat 64 (u / 2 ^ (7 * k)), offers := later
        snkAnswers := snk, resetInput := s.resetInput.drop (k + 2)
        acked := s.acked ++ (canonicalBytes 10 u).take k })

/-- R144, R145, R147, R149: a VARINT.DEC (VARLONG.DEC) of any sequence terminated at n of at most 5 (10) bytes,
canonical or not, with excess bits or not, consumes exactly those n bytes and completes with the value of the groups
modulo 2^32 (2^64) read as signed, COUNT = n and no error; every later byte stays in the source. -/
def Obligations.DecodeReadsATerminatedSequence : Prop :=
  ∀ (s : State) (x : Word64) (later : List Command) (src : List SrcAnswer) (bytes : List Byte) (n : Nat),
    n = bytes.length → s.fsm = .idle → s.srcAnswers = bytes.map .byte ++ src → NotReset (n + 1) s →
    (Terminated 5 bytes → s.offers = ⟨0x0A#8, x⟩ :: later →
      core.run (n + 1) s = .next { s with
        status := { busy := false, done := true, valid := true, err := .none, count := BitVec.ofNat 4 n }
        result := BitVec.ofInt 64 (BitVec.ofNat 32 (groupSum bytes)).toInt
        acc := BitVec.ofNat 64 (groupSum bytes % 2 ^ 32), fsm := .idle, op := 0x0A#8, offers := later
        srcAnswers := src, resetInput := s.resetInput.drop (n + 1) }) ∧
    (Terminated 10 bytes → s.offers = ⟨0x0B#8, x⟩ :: later →
      core.run (n + 1) s = .next { s with
        status := { busy := false, done := true, valid := true, err := .none, count := BitVec.ofNat 4 n }
        result := BitVec.ofNat 64 (groupSum bytes)
        acc := BitVec.ofNat 64 (groupSum bytes), fsm := .idle, op := 0x0B#8, offers := later
        srcAnswers := src, resetInput := s.resetInput.drop (n + 1) })

/-- R143: MAX bytes that all have the continuation bit give TOO_BIG in the step that reads the last of them:
COUNT = MAX, RESULT and IOCAUSE unchanged, and no further byte is read, whatever the source would answer next. -/
def Obligations.TooBigAfterMaxContinuedBytes : Prop :=
  ∀ (s : State) (x : Word64) (later : List Command) (src : List SrcAnswer) (bytes : List Byte),
    s.fsm = .idle → AllContinued bytes → s.srcAnswers = bytes.map .byte ++ src →
    NotReset (bytes.length + 1) s →
    (bytes.length = 5 → s.offers = ⟨0x0A#8, x⟩ :: later →
      core.run 6 s = .next { s with
        status := { busy := false, done := true, valid := false, err := .tooBig, count := 5#4 }
        acc := BitVec.ofNat 64 (groupSum bytes % 2 ^ 32)
        fsm := .idle, op := 0x0A#8, offers := later, srcAnswers := src, resetInput := s.resetInput.drop 6 }) ∧
    (bytes.length = 10 → s.offers = ⟨0x0B#8, x⟩ :: later →
      core.run 11 s = .next { s with
        status := { busy := false, done := true, valid := false, err := .tooBig, count := 10#4 }
        acc := BitVec.ofNat 64 (groupSum bytes)
        fsm := .idle, op := 0x0B#8, offers := later, srcAnswers := src, resetInput := s.resetInput.drop 11 })

/-- R146: a source that fails at index k, after k continued bytes, gives IO with IOCAUSE = c, COUNT = k, VALID = 0 and
RESULT unchanged, never a partial value. -/
def Obligations.DecodeCutShortGivesIo : Prop :=
  ∀ (s : State) (x : Word64) (later : List Command) (src : List SrcAnswer) (bytes : List Byte) (c : IoCause) (k : Nat),
    k = bytes.length → s.fsm = .idle → AllContinued bytes → s.srcAnswers = bytes.map .byte ++ .fail c :: src →
    NotReset (k + 2) s →
    (k ≤ 4 → s.offers = ⟨0x0A#8, x⟩ :: later →
      core.run (k + 2) s = .next { s with
        status := { busy := false, done := true, valid := false, err := .io, count := BitVec.ofNat 4 k }
        iocause := c, acc := BitVec.ofNat 64 (groupSum bytes), fsm := .idle, op := 0x0A#8, offers := later
        srcAnswers := src, resetInput := s.resetInput.drop (k + 2) }) ∧
    (k ≤ 9 → s.offers = ⟨0x0B#8, x⟩ :: later →
      core.run (k + 2) s = .next { s with
        status := { busy := false, done := true, valid := false, err := .io, count := BitVec.ofNat 4 k }
        iocause := c, acc := BitVec.ofNat 64 (groupSum bytes), fsm := .idle, op := 0x0B#8, offers := later
        srcAnswers := src, resetInput := s.resetInput.drop (k + 2) })

/-- R148: if the bytes a fully acknowledged varint.enc wrote are supplied to varint.dec, the decode completes with the
signed value back in RESULT and the same COUNT, and the bytes after them stay in the source; likewise varlong.enc and
varlong.dec. `n` is the number of Acks the encode needs (R83, R123). -/
def Obligations.EncodeThenDecodeGivesTheValueBack : Prop :=
  ∀ (s : State) (x y : Word64) (snk : List SnkAnswer) (src : List SrcAnswer) (n : Nat),
    s.fsm = .idle → s.resetInput = [] → s.snkAnswers = List.replicate n .ack ++ snk →
    (n = encLength 5 (x.toNat % 2 ^ 32) → s.offers = [⟨0x02#8, x⟩] →
      ∃ t bytes v, core.run (n + 1) s = .next t ∧ t.acked = s.acked ++ bytes ∧ t.status.err = .none ∧
        core.run (n + 1) { t with offers := [⟨0x0A#8, y⟩], srcAnswers := bytes.map .byte ++ src } = .next v ∧
        v.fsm = .idle ∧ v.status.valid = true ∧ v.status.err = .none ∧ v.status.count = t.status.count ∧
        v.srcAnswers = src ∧ v.result.toInt = (BitVec.ofNat 32 x.toNat).toInt) ∧
    (n = encLength 10 x.toNat → s.offers = [⟨0x03#8, x⟩] →
      ∃ t bytes v, core.run (n + 1) s = .next t ∧ t.acked = s.acked ++ bytes ∧ t.status.err = .none ∧
        core.run (n + 1) { t with offers := [⟨0x0B#8, y⟩], srcAnswers := bytes.map .byte ++ src } = .next v ∧
        v.fsm = .idle ∧ v.status.valid = true ∧ v.status.err = .none ∧ v.status.count = t.status.count ∧
        v.srcAnswers = src ∧ v.result = x)

/-- R220, R221: a command in progress ends within 10 port transactions if its own port, the one DIR selects, answers
them; a command whose port never answers stays in RUN with nothing changed, whatever the other port would answer. That a
held block answers a next state is the model's choice (log entry 9). -/
def Obligations.CommandEndsIfItsPortAnswers : Prop :=
  ∀ s : State, Inv s → s.fsm = .run →
    ((s.op.getLsbD 3 = false ∧ 10 ≤ s.snkAnswers.length) ∨ (s.op.getLsbD 3 = true ∧ 10 ≤ s.srcAnswers.length) →
      NotReset 10 s →
      ∃ n t, 1 ≤ n ∧ n ≤ 10 ∧ core.run n s = .next t ∧ t.fsm = .idle ∧ t.status.done = true) ∧
    ((s.op.getLsbD 3 = false ∧ s.snkAnswers = []) ∨ (s.op.getLsbD 3 = true ∧ s.srcAnswers = []) →
      s.resetInput = [] → ∀ n, core.run n s = .next s)

/-! ## Invariants and frames -/

/-- The reset state meets the invariant. -/
def Obligations.ResetStateMeetsTheInvariant : Prop := Inv State.reset

/-- Every step keeps the invariant, from every state that meets it and for every environment. -/
def Obligations.EveryStepKeepsTheInvariant : Prop := ∀ s t : State, Inv s → step s = .next t → Inv t

/-- R184: from a state that meets the invariant the block never stops on its own: every step has a next state. That a
held block answers a next state is the model's choice (log entry 9). -/
def Obligations.BlockNeverStops : Prop := ∀ s : State, Inv s → SafeStep s

/-- R39, R25, R184: in every state a run reaches from a reset, with any values in the registers a reset does not write
and with any environment, the facts of R39 hold, and BUSY equals FSM = RUN (R25); and the run never stops (R184), where
that a held block answers a next state is the model's choice (log entry 9). -/
def Obligations.ReachableStatesMeetTheSpecInvariant : Prop :=
  ∀ (s : State) (n : Nat), JustReset s →
    ∃ t, core.run n s = .next t ∧ SpecInvariant t ∧ (t.status.busy = true ↔ t.fsm = .run)

/-- R38, R42: every step from a state that meets the invariant is a reset, or else an event of the table of R38, or a hold;
and the fields of STATUS, RESULT and IOCAUSE are written as the table says, row by row, and not otherwise. A hold is a
step in which nothing is offered in IDLE or the port DIR selects has not answered in RUN: it changes nothing but the
reset sample taken, and that it answers a next state is the model's choice (log entry 9). -/
def Obligations.WriteTableOfStatusResultIocause : Prop :=
  ∀ s t : State, Inv s → step s = .next t →
    -- reset
    (t.fsm = .idle ∧ t.status = Status.cleared ∧ t.result = s.result ∧ t.iocause = s.iocause ∧
      ∃ l, s.resetInput = .asserted l :: t.resetInput) ∨
    NotReset 1 s ∧ (
    -- accept, legal opcode
    (s.fsm = .idle ∧ t.fsm = .run ∧ (∃ c, s.offers = c :: t.offers ∧ legal c.op = true) ∧
      t.status = { busy := true, done := false, valid := false, err := .none, count := 0#4 } ∧
      t.result = s.result ∧ t.iocause = s.iocause) ∨
    -- accept, illegal opcode
    (s.fsm = .idle ∧ t.fsm = .idle ∧ (∃ c, s.offers = c :: t.offers ∧ legal c.op = false) ∧
      t.status = { busy := false, done := true, valid := false, err := .illegalCmd, count := 0#4 } ∧
      t.result = s.result ∧ t.iocause = s.iocause) ∨
    -- successful transaction, command not finished
    (s.fsm = .run ∧ t.fsm = .run ∧
      ((s.op.getLsbD 3 = false ∧ s.snkAnswers = .ack :: t.snkAnswers ∧ ∃ b, t.acked = s.acked ++ [b]) ∨
        (s.op.getLsbD 3 = true ∧ ∃ b, s.srcAnswers = .byte b :: t.srcAnswers)) ∧
      t.status = { s.status with count := s.status.count + 1#4 } ∧
      t.result = s.result ∧ t.iocause = s.iocause) ∨
    -- successful transaction that completes an encode
    (s.fsm = .run ∧ t.fsm = .idle ∧ s.op.getLsbD 3 = false ∧ s.snkAnswers = .ack :: t.snkAnswers ∧
      (∃ b, t.acked = s.acked ++ [b]) ∧
      t.status = { s.status with busy := false, done := true, count := s.status.count + 1#4 } ∧
      t.result = s.result ∧ t.iocause = s.iocause) ∨
    -- successful transaction that completes a decode
    (s.fsm = .run ∧ t.fsm = .idle ∧ s.op.getLsbD 3 = true ∧ (∃ b, s.srcAnswers = .byte b :: t.srcAnswers) ∧
      t.status = { s.status with busy := false, done := true, valid := true, count := s.status.count + 1#4 } ∧
      t.iocause = s.iocause) ∨
    -- successful read that raises TOO_BIG
    (s.fsm = .run ∧ t.fsm = .idle ∧ (s.op = 0x0A#8 ∨ s.op = 0x0B#8) ∧ (∃ b, s.srcAnswers = .byte b :: t.srcAnswers) ∧
      t.status = { s.status with busy := false, done := true, err := .tooBig, count := s.status.count + 1#4 } ∧
      t.result = s.result ∧ t.iocause = s.iocause) ∨
    -- failed transaction
    (s.fsm = .run ∧ t.fsm = .idle ∧
      ((s.op.getLsbD 3 = false ∧ s.snkAnswers = .fail t.iocause :: t.snkAnswers) ∨
        (s.op.getLsbD 3 = true ∧ s.srcAnswers = .fail t.iocause :: t.srcAnswers)) ∧
      t.status = { s.status with busy := false, done := true, err := .io } ∧ t.result = s.result) ∨
    -- hold
    (((s.fsm = .idle ∧ s.offers = []) ∨ (s.fsm = .run ∧ s.op.getLsbD 3 = false ∧ s.snkAnswers = []) ∨
        (s.fsm = .run ∧ s.op.getLsbD 3 = true ∧ s.srcAnswers = [])) ∧
      t = { s with resetInput := s.resetInput.tail }))

/-- R27, R32: a step changes RESULT, or leaves VALID set, only as R27 and R32 say: a step after which VALID is 1 either
completed a decode, or began with VALID = 1 and left RESULT alone; and RESULT changes in no other step. -/
def Obligations.ResultIsWrittenOnlyByASuccessfulDecode : Prop :=
  ∀ s t : State, step s = .next t →
    t.result ≠ s.result ∨ (t.status.valid = true ∧ s.status.valid = false) →
    s.fsm = .run ∧ s.op.getLsbD 3 = true ∧ (∃ b, s.srcAnswers = .byte b :: t.srcAnswers) ∧
      t.fsm = .idle ∧ t.status.valid = true ∧ t.status.done = true ∧ t.status.busy = false

/-- R35, R36, R37: which steps write OP, REM and ACC. -/
def Obligations.HiddenRegistersAreWrittenAsTheRulesSay : Prop :=
  ∀ s t : State, step s = .next t →
    (t.op ≠ s.op → s.fsm = .idle ∧ t.fsm = .run ∧ ∃ c, s.offers = c :: t.offers ∧ legal c.op = true ∧ t.op = c.op) ∧
    (t.rem ≠ s.rem → (s.fsm = .idle ∧ t.fsm = .run ∧ t.op.getLsbD 3 = false) ∨
      (s.fsm = .run ∧ (s.op = 0x02#8 ∨ s.op = 0x03#8) ∧ s.snkAnswers = .ack :: t.snkAnswers)) ∧
    (t.acc ≠ s.acc → (s.fsm = .idle ∧ t.fsm = .run ∧ t.op.getLsbD 3 = true ∧ t.acc = 0#64) ∨
      (s.fsm = .run ∧ (s.op = 0x0A#8 ∨ s.op = 0x0B#8) ∧ ∃ b, s.srcAnswers = .byte b :: t.srcAnswers))

/-- The frame of the four encode commands, on every next state: RESULT, ACC, the source, the host's offers and the
reset input are untouched; the acceptance also leaves the sink and IOCAUSE; a transfer step leaves OP, appends at most
the one byte the rule gives (REM's bit 0, its low byte, or the shifter's byte), and writes IOCAUSE only on a Fail. -/
def Obligations.EncodeCommandsFrame : Prop :=
  ∀ (i : Instr) (x : Word64) (s t : State) (b : Byte),
    ((i = .boolEnc x ∧ b = BitVec.ofNat 8 (s.rem.toNat % 2)) ∨ (i = .byteEnc x ∧ b = BitVec.ofNat 8 s.rem.toNat) ∨
      (i = .varintEnc x ∧ b = (encStep (lowBits 32 s.rem)).byte) ∨
      (i = .varlongEnc x ∧ b = (encStep (lowBits 64 s.rem)).byte)) →
    exec i s = .next t →
    t.result = s.result ∧ t.acc = s.acc ∧ t.srcAnswers = s.srcAnswers ∧ t.offers = s.offers ∧
    t.resetInput = s.resetInput ∧
    (s.fsm = .idle → t.acked = s.acked ∧ t.snkAnswers = s.snkAnswers ∧ t.iocause = s.iocause) ∧
    (s.fsm = .run → t.op = s.op ∧ t.status.valid = s.status.valid ∧
      ((s.snkAnswers = [] ∧ t = s) ∨
       (s.snkAnswers = .ack :: t.snkAnswers ∧ t.acked = s.acked ++ [b] ∧ t.iocause = s.iocause ∧
         t.status.err = s.status.err) ∨
       (s.snkAnswers = .fail t.iocause :: t.snkAnswers ∧ t.acked = s.acked ∧ t.rem = s.rem ∧
         t.status.count = s.status.count)))

/-- The frame of the four decode commands, on every next state: REM, the sink and its bytes, the host's offers and the
reset input are untouched; the acceptance also leaves the source, RESULT and IOCAUSE; a transfer step leaves OP,
consumes at most one byte, and writes IOCAUSE only on a Fail, which leaves RESULT, ACC and COUNT. -/
def Obligations.DecodeCommandsFrame : Prop :=
  ∀ (i : Instr) (x : Word64) (s t : State),
    i = .boolDec x ∨ i = .byteDec x ∨ i = .varintDec x ∨ i = .varlongDec x →
    exec i s = .next t →
    t.rem = s.rem ∧ t.snkAnswers = s.snkAnswers ∧ t.acked = s.acked ∧ t.offers = s.offers ∧
    t.resetInput = s.resetInput ∧
    (s.fsm = .idle → t.srcAnswers = s.srcAnswers ∧ t.result = s.result ∧ t.iocause = s.iocause) ∧
    (s.fsm = .run → t.op = s.op ∧
      ((s.srcAnswers = [] ∧ t = s) ∨
       ((∃ b, s.srcAnswers = .byte b :: t.srcAnswers) ∧ t.iocause = s.iocause ∧
         (i = .boolDec x ∨ i = .byteDec x → t.acc = s.acc)) ∨
       (s.srcAnswers = .fail t.iocause :: t.srcAnswers ∧ t.result = s.result ∧ t.acc = s.acc ∧
         t.status.count = s.status.count ∧ t.status.valid = s.status.valid)))

/-- R29: COUNT rises by 1 in exactly the transfer steps whose transaction succeeded. -/
def Obligations.CountIsTheSuccessfulTransactions : Prop :=
  ∀ s t : State, Inv s → NotReset 1 s → s.fsm = .run → step s = .next t →
    t.status.count.toNat = s.status.count.toNat +
      ((t.acked.length - s.acked.length) +
        (s.srcAnswers.take (s.srcAnswers.length - t.srcAnswers.length)).countP
          (fun a => match a with | .byte _ => true | .fail _ => false))

/-- R26, R62: once DONE is 1, a step that neither resets the block nor accepts a command changes nothing: STATUS, RESULT
and IOCAUSE hold their final values, and no byte is moved. -/
def Obligations.OutcomeStaysUntilAcceptanceOrReset : Prop :=
  ∀ s t : State, Inv s → s.status.done = true → NotReset 1 s → step s = .next t → t.offers = s.offers →
    t = { s with resetInput := s.resetInput.tail }

/-- R33, 92_eei_decisions.md D13: no step inspects a failure value; it is only copied, so relabelling every failure value
commutes with a step. -/
def Obligations.FailureValuesAreOnlyCopied : Prop :=
  ∀ (f : IoCause → IoCause) (s t : State), step s = .next t → step (s.relabel f) = .next (t.relabel f)

/-- R24, R30, R31: where each field of STATUS stands in the word the host reads; the reserved bits read 0. -/
def Obligations.StatusWordLayout : Prop :=
  ∀ s : State,
    (readStatus s).getLsbD 0 = s.status.busy ∧ (readStatus s).getLsbD 1 = s.status.done ∧
    (readStatus s).getLsbD 2 = s.status.valid ∧ (readStatus s).getLsbD 3 = false ∧
    (readStatus s).extractLsb' 4 3 =
      (match s.status.err with | .none => 0#3 | .tooBig => 1#3 | .io => 2#3 | .illegalCmd => 3#3) ∧
    (readStatus s).getLsbD 7 = false ∧ (readStatus s).extractLsb' 8 4 = s.status.count ∧
    (readStatus s).extractLsb' 12 4 = 0#4

/-! ## The assembler -/

/-- R91: what the disassembler prints assembles back to the same command, as a line and as text. -/
def Obligations.DisassemblyAssemblesBack : Prop :=
  ∀ c : Command, assemble (disassemble c) = some c ∧ assembleText (disassembleText c) = some [c]

/-- R88, R89: a decimal operand in the signed range of the type assembles to the command with its bit pattern, and one
outside it is refused. -/
def Obligations.AssemblerTakesTheSignedRange : Prop :=
  ∀ (negative : Bool) (n : Nat) (v : Int), v = (if negative then -(n : Int) else (n : Int)) →
    (assemble (.mnem .byteEnc (some (.lit (.dec negative n)))) =
      if -128 ≤ v ∧ v ≤ 127 then some ⟨0x01#8, BitVec.ofNat 64 (v % 2 ^ 8).toNat⟩ else none) ∧
    (assemble (.mnem .varintEnc (some (.lit (.dec negative n)))) =
      if -2 ^ 31 ≤ v ∧ v ≤ 2 ^ 31 - 1 then some ⟨0x02#8, BitVec.ofNat 64 (v % 2 ^ 32).toNat⟩ else none) ∧
    (assemble (.mnem .varlongEnc (some (.lit (.dec negative n)))) =
      if -2 ^ 63 ≤ v ∧ v ≤ 2 ^ 63 - 1 then some ⟨0x03#8, BitVec.ofNat 64 (v % 2 ^ 64).toNat⟩ else none)

/-! ## Stops -/

/-- The converse of WhereTheModelStops: a step faults in those two situations and in no other, and it never refuses. The
two stops are the model's choice (log entries 15 and 16). -/
def Obligations.ModelStopsNowhereElse : Prop :=
  ∀ s : State, (∀ r, step s ≠ .refused r) ∧
    ∀ f, step s = .fault f → NotReset 1 s ∧ s.fsm = .run ∧
      ((f = .opNotLegalInRun ∧ legal s.op = false) ∨
       (f = .decStepIndexOutOfRange ∧ (∃ b later, s.srcAnswers = .byte b :: later) ∧
         ((s.op = 0x0A#8 ∧ 5 ≤ s.status.count.toNat) ∨ (s.op = 0x0B#8 ∧ 10 ≤ s.status.count.toNat))))
end

