-- ==== Sys2Proof/Laws/State.lean ====
section
/-! SUPPORT. One lemma per field per update of the block's state and of STATUS, each true by unfolding once. -/

namespace Sys2Proof.Machine

open Sys2Proof.Config (IoCause)

/-! ### acceptEncode -/

@[simp] theorem acceptEncode_status (op : BitVec 8) (ty : PrimType) (operand : Word64) (s : State) : (acceptEncode op ty operand s).status = s.status.clearOutcome.setBusy := rfl
@[simp] theorem acceptEncode_result (op : BitVec 8) (ty : PrimType) (operand : Word64) (s : State) : (acceptEncode op ty operand s).result = s.result := rfl
@[simp] theorem acceptEncode_iocause (op : BitVec 8) (ty : PrimType) (operand : Word64) (s : State) : (acceptEncode op ty operand s).iocause = s.iocause := rfl
@[simp] theorem acceptEncode_fsm (op : BitVec 8) (ty : PrimType) (operand : Word64) (s : State) : (acceptEncode op ty operand s).fsm = .run := rfl
@[simp] theorem acceptEncode_op (op : BitVec 8) (ty : PrimType) (operand : Word64) (s : State) : (acceptEncode op ty operand s).op = op := rfl
@[simp] theorem acceptEncode_rem (op : BitVec 8) (ty : PrimType) (operand : Word64) (s : State) : (acceptEncode op ty operand s).rem = operandSlice ty operand := rfl
@[simp] theorem acceptEncode_acc (op : BitVec 8) (ty : PrimType) (operand : Word64) (s : State) : (acceptEncode op ty operand s).acc = s.acc := rfl
@[simp] theorem acceptEncode_offers (op : BitVec 8) (ty : PrimType) (operand : Word64) (s : State) : (acceptEncode op ty operand s).offers = s.offers := rfl
@[simp] theorem acceptEncode_srcAnswers (op : BitVec 8) (ty : PrimType) (operand : Word64) (s : State) : (acceptEncode op ty operand s).srcAnswers = s.srcAnswers := rfl
@[simp] theorem acceptEncode_snkAnswers (op : BitVec 8) (ty : PrimType) (operand : Word64) (s : State) : (acceptEncode op ty operand s).snkAnswers = s.snkAnswers := rfl
@[simp] theorem acceptEncode_resetInput (op : BitVec 8) (ty : PrimType) (operand : Word64) (s : State) : (acceptEncode op ty operand s).resetInput = s.resetInput := rfl
@[simp] theorem acceptEncode_acked (op : BitVec 8) (ty : PrimType) (operand : Word64) (s : State) : (acceptEncode op ty operand s).acked = s.acked := rfl

/-! ### acceptDecode -/

@[simp] theorem acceptDecode_status (op : BitVec 8) (s : State) : (acceptDecode op s).status = s.status.clearOutcome.setBusy := rfl
@[simp] theorem acceptDecode_result (op : BitVec 8) (s : State) : (acceptDecode op s).result = s.result := rfl
@[simp] theorem acceptDecode_iocause (op : BitVec 8) (s : State) : (acceptDecode op s).iocause = s.iocause := rfl
@[simp] theorem acceptDecode_fsm (op : BitVec 8) (s : State) : (acceptDecode op s).fsm = .run := rfl
@[simp] theorem acceptDecode_op (op : BitVec 8) (s : State) : (acceptDecode op s).op = op := rfl
@[simp] theorem acceptDecode_rem (op : BitVec 8) (s : State) : (acceptDecode op s).rem = s.rem := rfl
@[simp] theorem acceptDecode_acc (op : BitVec 8) (s : State) : (acceptDecode op s).acc = 0#64 := rfl
@[simp] theorem acceptDecode_offers (op : BitVec 8) (s : State) : (acceptDecode op s).offers = s.offers := rfl
@[simp] theorem acceptDecode_srcAnswers (op : BitVec 8) (s : State) : (acceptDecode op s).srcAnswers = s.srcAnswers := rfl
@[simp] theorem acceptDecode_snkAnswers (op : BitVec 8) (s : State) : (acceptDecode op s).snkAnswers = s.snkAnswers := rfl
@[simp] theorem acceptDecode_resetInput (op : BitVec 8) (s : State) : (acceptDecode op s).resetInput = s.resetInput := rfl
@[simp] theorem acceptDecode_acked (op : BitVec 8) (s : State) : (acceptDecode op s).acked = s.acked := rfl

/-! ### raise_tooBig -/

@[simp] theorem raise_tooBig_status (s : State) : (raise .tooBig s).status = s.status.abort .tooBig := rfl
@[simp] theorem raise_tooBig_result (s : State) : (raise .tooBig s).result = s.result := rfl
@[simp] theorem raise_tooBig_iocause (s : State) : (raise .tooBig s).iocause = s.iocause := rfl
@[simp] theorem raise_tooBig_fsm (s : State) : (raise .tooBig s).fsm = .idle := rfl
@[simp] theorem raise_tooBig_op (s : State) : (raise .tooBig s).op = s.op := rfl
@[simp] theorem raise_tooBig_rem (s : State) : (raise .tooBig s).rem = s.rem := rfl
@[simp] theorem raise_tooBig_acc (s : State) : (raise .tooBig s).acc = s.acc := rfl
@[simp] theorem raise_tooBig_offers (s : State) : (raise .tooBig s).offers = s.offers := rfl
@[simp] theorem raise_tooBig_srcAnswers (s : State) : (raise .tooBig s).srcAnswers = s.srcAnswers := rfl
@[simp] theorem raise_tooBig_snkAnswers (s : State) : (raise .tooBig s).snkAnswers = s.snkAnswers := rfl
@[simp] theorem raise_tooBig_resetInput (s : State) : (raise .tooBig s).resetInput = s.resetInput := rfl
@[simp] theorem raise_tooBig_acked (s : State) : (raise .tooBig s).acked = s.acked := rfl

/-! ### raise_io -/

@[simp] theorem raise_io_status (c : IoCause) (s : State) : (raise (.io c) s).status = s.status.abort .io := rfl
@[simp] theorem raise_io_result (c : IoCause) (s : State) : (raise (.io c) s).result = s.result := rfl
@[simp] theorem raise_io_iocause (c : IoCause) (s : State) : (raise (.io c) s).iocause = c := rfl
@[simp] theorem raise_io_fsm (c : IoCause) (s : State) : (raise (.io c) s).fsm = .idle := rfl
@[simp] theorem raise_io_op (c : IoCause) (s : State) : (raise (.io c) s).op = s.op := rfl
@[simp] theorem raise_io_rem (c : IoCause) (s : State) : (raise (.io c) s).rem = s.rem := rfl
@[simp] theorem raise_io_acc (c : IoCause) (s : State) : (raise (.io c) s).acc = s.acc := rfl
@[simp] theorem raise_io_offers (c : IoCause) (s : State) : (raise (.io c) s).offers = s.offers := rfl
@[simp] theorem raise_io_srcAnswers (c : IoCause) (s : State) : (raise (.io c) s).srcAnswers = s.srcAnswers := rfl
@[simp] theorem raise_io_snkAnswers (c : IoCause) (s : State) : (raise (.io c) s).snkAnswers = s.snkAnswers := rfl
@[simp] theorem raise_io_resetInput (c : IoCause) (s : State) : (raise (.io c) s).resetInput = s.resetInput := rfl
@[simp] theorem raise_io_acked (c : IoCause) (s : State) : (raise (.io c) s).acked = s.acked := rfl

/-! ### raise_illegalCmd -/

@[simp] theorem raise_illegalCmd_status (s : State) : (raise .illegalCmd s).status = s.status.markIllegal := rfl
@[simp] theorem raise_illegalCmd_result (s : State) : (raise .illegalCmd s).result = s.result := rfl
@[simp] theorem raise_illegalCmd_iocause (s : State) : (raise .illegalCmd s).iocause = s.iocause := rfl
@[simp] theorem raise_illegalCmd_fsm (s : State) : (raise .illegalCmd s).fsm = s.fsm := rfl
@[simp] theorem raise_illegalCmd_op (s : State) : (raise .illegalCmd s).op = s.op := rfl
@[simp] theorem raise_illegalCmd_rem (s : State) : (raise .illegalCmd s).rem = s.rem := rfl
@[simp] theorem raise_illegalCmd_acc (s : State) : (raise .illegalCmd s).acc = s.acc := rfl
@[simp] theorem raise_illegalCmd_offers (s : State) : (raise .illegalCmd s).offers = s.offers := rfl
@[simp] theorem raise_illegalCmd_srcAnswers (s : State) : (raise .illegalCmd s).srcAnswers = s.srcAnswers := rfl
@[simp] theorem raise_illegalCmd_snkAnswers (s : State) : (raise .illegalCmd s).snkAnswers = s.snkAnswers := rfl
@[simp] theorem raise_illegalCmd_resetInput (s : State) : (raise .illegalCmd s).resetInput = s.resetInput := rfl
@[simp] theorem raise_illegalCmd_acked (s : State) : (raise .illegalCmd s).acked = s.acked := rfl

/-! ### acceptIllegal -/

@[simp] theorem acceptIllegal_status (s : State) : (acceptIllegal s).status = s.status.clearOutcome.markIllegal := rfl
@[simp] theorem acceptIllegal_result (s : State) : (acceptIllegal s).result = s.result := rfl
@[simp] theorem acceptIllegal_iocause (s : State) : (acceptIllegal s).iocause = s.iocause := rfl
@[simp] theorem acceptIllegal_fsm (s : State) : (acceptIllegal s).fsm = s.fsm := rfl
@[simp] theorem acceptIllegal_op (s : State) : (acceptIllegal s).op = s.op := rfl
@[simp] theorem acceptIllegal_rem (s : State) : (acceptIllegal s).rem = s.rem := rfl
@[simp] theorem acceptIllegal_acc (s : State) : (acceptIllegal s).acc = s.acc := rfl
@[simp] theorem acceptIllegal_offers (s : State) : (acceptIllegal s).offers = s.offers := rfl
@[simp] theorem acceptIllegal_srcAnswers (s : State) : (acceptIllegal s).srcAnswers = s.srcAnswers := rfl
@[simp] theorem acceptIllegal_snkAnswers (s : State) : (acceptIllegal s).snkAnswers = s.snkAnswers := rfl
@[simp] theorem acceptIllegal_resetInput (s : State) : (acceptIllegal s).resetInput = s.resetInput := rfl
@[simp] theorem acceptIllegal_acked (s : State) : (acceptIllegal s).acked = s.acked := rfl

/-! ### complete -/

@[simp] theorem complete_status (s : State) : (complete s).status = s.status.complete := rfl
@[simp] theorem complete_result (s : State) : (complete s).result = s.result := rfl
@[simp] theorem complete_iocause (s : State) : (complete s).iocause = s.iocause := rfl
@[simp] theorem complete_fsm (s : State) : (complete s).fsm = .idle := rfl
@[simp] theorem complete_op (s : State) : (complete s).op = s.op := rfl
@[simp] theorem complete_rem (s : State) : (complete s).rem = s.rem := rfl
@[simp] theorem complete_acc (s : State) : (complete s).acc = s.acc := rfl
@[simp] theorem complete_offers (s : State) : (complete s).offers = s.offers := rfl
@[simp] theorem complete_srcAnswers (s : State) : (complete s).srcAnswers = s.srcAnswers := rfl
@[simp] theorem complete_snkAnswers (s : State) : (complete s).snkAnswers = s.snkAnswers := rfl
@[simp] theorem complete_resetInput (s : State) : (complete s).resetInput = s.resetInput := rfl
@[simp] theorem complete_acked (s : State) : (complete s).acked = s.acked := rfl

/-! ### completeDecode -/

@[simp] theorem completeDecode_status (value : Word64) (s : State) : (completeDecode value s).status = s.status.setValid.complete := rfl
@[simp] theorem completeDecode_result (value : Word64) (s : State) : (completeDecode value s).result = value := rfl
@[simp] theorem completeDecode_iocause (value : Word64) (s : State) : (completeDecode value s).iocause = s.iocause := rfl
@[simp] theorem completeDecode_fsm (value : Word64) (s : State) : (completeDecode value s).fsm = .idle := rfl
@[simp] theorem completeDecode_op (value : Word64) (s : State) : (completeDecode value s).op = s.op := rfl
@[simp] theorem completeDecode_rem (value : Word64) (s : State) : (completeDecode value s).rem = s.rem := rfl
@[simp] theorem completeDecode_acc (value : Word64) (s : State) : (completeDecode value s).acc = s.acc := rfl
@[simp] theorem completeDecode_offers (value : Word64) (s : State) : (completeDecode value s).offers = s.offers := rfl
@[simp] theorem completeDecode_srcAnswers (value : Word64) (s : State) : (completeDecode value s).srcAnswers = s.srcAnswers := rfl
@[simp] theorem completeDecode_snkAnswers (value : Word64) (s : State) : (completeDecode value s).snkAnswers = s.snkAnswers := rfl
@[simp] theorem completeDecode_resetInput (value : Word64) (s : State) : (completeDecode value s).resetInput = s.resetInput := rfl
@[simp] theorem completeDecode_acked (value : Word64) (s : State) : (completeDecode value s).acked = s.acked := rfl

/-! ### countUp -/

@[simp] theorem countUp_status (s : State) : (countUp s).status = s.status.countUp := rfl
@[simp] theorem countUp_result (s : State) : (countUp s).result = s.result := rfl
@[simp] theorem countUp_iocause (s : State) : (countUp s).iocause = s.iocause := rfl
@[simp] theorem countUp_fsm (s : State) : (countUp s).fsm = s.fsm := rfl
@[simp] theorem countUp_op (s : State) : (countUp s).op = s.op := rfl
@[simp] theorem countUp_rem (s : State) : (countUp s).rem = s.rem := rfl
@[simp] theorem countUp_acc (s : State) : (countUp s).acc = s.acc := rfl
@[simp] theorem countUp_offers (s : State) : (countUp s).offers = s.offers := rfl
@[simp] theorem countUp_srcAnswers (s : State) : (countUp s).srcAnswers = s.srcAnswers := rfl
@[simp] theorem countUp_snkAnswers (s : State) : (countUp s).snkAnswers = s.snkAnswers := rfl
@[simp] theorem countUp_resetInput (s : State) : (countUp s).resetInput = s.resetInput := rfl
@[simp] theorem countUp_acked (s : State) : (countUp s).acked = s.acked := rfl

/-! ### countOne -/

@[simp] theorem countOne_status (s : State) : (countOne s).status = s.status.countOne := rfl
@[simp] theorem countOne_result (s : State) : (countOne s).result = s.result := rfl
@[simp] theorem countOne_iocause (s : State) : (countOne s).iocause = s.iocause := rfl
@[simp] theorem countOne_fsm (s : State) : (countOne s).fsm = s.fsm := rfl
@[simp] theorem countOne_op (s : State) : (countOne s).op = s.op := rfl
@[simp] theorem countOne_rem (s : State) : (countOne s).rem = s.rem := rfl
@[simp] theorem countOne_acc (s : State) : (countOne s).acc = s.acc := rfl
@[simp] theorem countOne_offers (s : State) : (countOne s).offers = s.offers := rfl
@[simp] theorem countOne_srcAnswers (s : State) : (countOne s).srcAnswers = s.srcAnswers := rfl
@[simp] theorem countOne_snkAnswers (s : State) : (countOne s).snkAnswers = s.snkAnswers := rfl
@[simp] theorem countOne_resetInput (s : State) : (countOne s).resetInput = s.resetInput := rfl
@[simp] theorem countOne_acked (s : State) : (countOne s).acked = s.acked := rfl

/-! ### offerNow -/

@[simp] theorem offerNow_status (c : Command) (s : State) : (offerNow c s).status = { s.status with busy := false } := rfl
@[simp] theorem offerNow_result (c : Command) (s : State) : (offerNow c s).result = s.result := rfl
@[simp] theorem offerNow_iocause (c : Command) (s : State) : (offerNow c s).iocause = s.iocause := rfl
@[simp] theorem offerNow_fsm (c : Command) (s : State) : (offerNow c s).fsm = .idle := rfl
@[simp] theorem offerNow_op (c : Command) (s : State) : (offerNow c s).op = s.op := rfl
@[simp] theorem offerNow_rem (c : Command) (s : State) : (offerNow c s).rem = s.rem := rfl
@[simp] theorem offerNow_acc (c : Command) (s : State) : (offerNow c s).acc = s.acc := rfl
@[simp] theorem offerNow_offers (c : Command) (s : State) : (offerNow c s).offers = c :: s.offers := rfl
@[simp] theorem offerNow_srcAnswers (c : Command) (s : State) : (offerNow c s).srcAnswers = s.srcAnswers := rfl
@[simp] theorem offerNow_snkAnswers (c : Command) (s : State) : (offerNow c s).snkAnswers = s.snkAnswers := rfl
@[simp] theorem offerNow_resetInput (c : Command) (s : State) : (offerNow c s).resetInput = .deasserted :: s.resetInput := rfl
@[simp] theorem offerNow_acked (c : Command) (s : State) : (offerNow c s).acked = s.acked := rfl

/-! ### resetStep -/

@[simp] theorem withdraw_result (l : Bool) (s : State) : (withdraw l s).result = s.result := by
  unfold withdraw
  split <;> try rfl
  split <;> rfl
@[simp] theorem resetStep_result (l : Bool) (s : State) : (resetStep l s).result = s.result := by simp [resetStep]
@[simp] theorem withdraw_iocause (l : Bool) (s : State) : (withdraw l s).iocause = s.iocause := by
  unfold withdraw
  split <;> try rfl
  split <;> rfl
@[simp] theorem resetStep_iocause (l : Bool) (s : State) : (resetStep l s).iocause = s.iocause := by simp [resetStep]
@[simp] theorem withdraw_op (l : Bool) (s : State) : (withdraw l s).op = s.op := by
  unfold withdraw
  split <;> try rfl
  split <;> rfl
@[simp] theorem resetStep_op (l : Bool) (s : State) : (resetStep l s).op = s.op := by simp [resetStep]
@[simp] theorem withdraw_rem (l : Bool) (s : State) : (withdraw l s).rem = s.rem := by
  unfold withdraw
  split <;> try rfl
  split <;> rfl
@[simp] theorem resetStep_rem (l : Bool) (s : State) : (resetStep l s).rem = s.rem := by simp [resetStep]
@[simp] theorem withdraw_acc (l : Bool) (s : State) : (withdraw l s).acc = s.acc := by
  unfold withdraw
  split <;> try rfl
  split <;> rfl
@[simp] theorem resetStep_acc (l : Bool) (s : State) : (resetStep l s).acc = s.acc := by simp [resetStep]
@[simp] theorem withdraw_offers (l : Bool) (s : State) : (withdraw l s).offers = s.offers := by
  unfold withdraw
  split <;> try rfl
  split <;> rfl
@[simp] theorem resetStep_offers (l : Bool) (s : State) : (resetStep l s).offers = s.offers := by simp [resetStep]
@[simp] theorem withdraw_resetInput (l : Bool) (s : State) : (withdraw l s).resetInput = s.resetInput := by
  unfold withdraw
  split <;> try rfl
  split <;> rfl
@[simp] theorem resetStep_resetInput (l : Bool) (s : State) : (resetStep l s).resetInput = s.resetInput := by simp [resetStep]
@[simp] theorem withdraw_acked (l : Bool) (s : State) : (withdraw l s).acked = s.acked := by
  unfold withdraw
  split <;> try rfl
  split <;> rfl
@[simp] theorem resetStep_acked (l : Bool) (s : State) : (resetStep l s).acked = s.acked := by simp [resetStep]
@[simp] theorem resetStep_status (l : Bool) (s : State) : (resetStep l s).status = Status.cleared := rfl
@[simp] theorem resetStep_fsm (l : Bool) (s : State) : (resetStep l s).fsm = .idle := rfl

/-! ### STATUS -/

@[simp] theorem Status.clearOutcome_busy (t : Status) : (t.clearOutcome).busy = t.busy := rfl
@[simp] theorem Status.clearOutcome_done (t : Status) : (t.clearOutcome).done = false := rfl
@[simp] theorem Status.clearOutcome_valid (t : Status) : (t.clearOutcome).valid = false := rfl
@[simp] theorem Status.clearOutcome_err (t : Status) : (t.clearOutcome).err = .none := rfl
@[simp] theorem Status.clearOutcome_count (t : Status) : (t.clearOutcome).count = 0#4 := rfl
@[simp] theorem Status.setBusy_busy (t : Status) : (t.setBusy).busy = true := rfl
@[simp] theorem Status.setBusy_done (t : Status) : (t.setBusy).done = t.done := rfl
@[simp] theorem Status.setBusy_valid (t : Status) : (t.setBusy).valid = t.valid := rfl
@[simp] theorem Status.setBusy_err (t : Status) : (t.setBusy).err = t.err := rfl
@[simp] theorem Status.setBusy_count (t : Status) : (t.setBusy).count = t.count := rfl
@[simp] theorem Status.countUp_busy (t : Status) : (t.countUp).busy = t.busy := rfl
@[simp] theorem Status.countUp_done (t : Status) : (t.countUp).done = t.done := rfl
@[simp] theorem Status.countUp_valid (t : Status) : (t.countUp).valid = t.valid := rfl
@[simp] theorem Status.countUp_err (t : Status) : (t.countUp).err = t.err := rfl
@[simp] theorem Status.countUp_count (t : Status) : (t.countUp).count = t.count + 1#4 := rfl
@[simp] theorem Status.countOne_busy (t : Status) : (t.countOne).busy = t.busy := rfl
@[simp] theorem Status.countOne_done (t : Status) : (t.countOne).done = t.done := rfl
@[simp] theorem Status.countOne_valid (t : Status) : (t.countOne).valid = t.valid := rfl
@[simp] theorem Status.countOne_err (t : Status) : (t.countOne).err = t.err := rfl
@[simp] theorem Status.countOne_count (t : Status) : (t.countOne).count = 1#4 := rfl
@[simp] theorem Status.setValid_busy (t : Status) : (t.setValid).busy = t.busy := rfl
@[simp] theorem Status.setValid_done (t : Status) : (t.setValid).done = t.done := rfl
@[simp] theorem Status.setValid_valid (t : Status) : (t.setValid).valid = true := rfl
@[simp] theorem Status.setValid_err (t : Status) : (t.setValid).err = t.err := rfl
@[simp] theorem Status.setValid_count (t : Status) : (t.setValid).count = t.count := rfl
@[simp] theorem Status.complete_busy (t : Status) : (t.complete).busy = false := rfl
@[simp] theorem Status.complete_done (t : Status) : (t.complete).done = true := rfl
@[simp] theorem Status.complete_valid (t : Status) : (t.complete).valid = t.valid := rfl
@[simp] theorem Status.complete_err (t : Status) : (t.complete).err = t.err := rfl
@[simp] theorem Status.complete_count (t : Status) : (t.complete).count = t.count := rfl
@[simp] theorem Status.abort_busy (e : ErrCode) (t : Status) : (Status.abort e t).busy = false := rfl
@[simp] theorem Status.abort_done (e : ErrCode) (t : Status) : (Status.abort e t).done = true := rfl
@[simp] theorem Status.abort_valid (e : ErrCode) (t : Status) : (Status.abort e t).valid = t.valid := rfl
@[simp] theorem Status.abort_err (e : ErrCode) (t : Status) : (Status.abort e t).err = e := rfl
@[simp] theorem Status.abort_count (e : ErrCode) (t : Status) : (Status.abort e t).count = t.count := rfl
@[simp] theorem Status.markIllegal_busy (t : Status) : (t.markIllegal).busy = t.busy := rfl
@[simp] theorem Status.markIllegal_done (t : Status) : (t.markIllegal).done = true := rfl
@[simp] theorem Status.markIllegal_valid (t : Status) : (t.markIllegal).valid = t.valid := rfl
@[simp] theorem Status.markIllegal_err (t : Status) : (t.markIllegal).err = .illegalCmd := rfl
@[simp] theorem Status.markIllegal_count (t : Status) : (t.markIllegal).count = t.count := rfl
@[simp] theorem Status.cleared_busy : Status.cleared.busy = false := rfl
@[simp] theorem Status.cleared_done : Status.cleared.done = false := rfl
@[simp] theorem Status.cleared_valid : Status.cleared.valid = false := rfl
@[simp] theorem Status.cleared_err : Status.cleared.err = .none := rfl
@[simp] theorem Status.cleared_count : Status.cleared.count = 0#4 := rfl

end Sys2Proof.Machine
end

