-- ==== Sys2Proof/Laws/Ops.lean ====
section
/-! SUPPORT. What each shared operation can do, said once: the port primitives, each meaning, and the step. -/

namespace Sys2Proof.Machine

open Sys2Proof.Config (IoCause)

/-! ### Ports -/

/-- `SnkWrite` holds, or fails into an Io abort, or acknowledges the byte and goes on (R51, R182). -/
theorem snkWrite_cases (b : Byte) (k : State → Result) (s : State) :
    (s.snkAnswers = [] ∧ snkWrite b k s = .next s) ∨
    (∃ c rest, s.snkAnswers = .fail c :: rest ∧
      snkWrite b k s = .next (raise (.io c) { s with snkAnswers := rest })) ∨
    (∃ rest, s.snkAnswers = .ack :: rest ∧
      snkWrite b k s = k { s with snkAnswers := rest, acked := s.acked ++ [b] }) := by
  unfold snkWrite
  split <;> simp_all

/-- `SrcRead` holds, or fails into an Io abort, or delivers a byte and goes on (R50, R182). -/
theorem srcRead_cases (k : Byte → State → Result) (s : State) :
    (s.srcAnswers = [] ∧ srcRead k s = .next s) ∨
    (∃ c rest, s.srcAnswers = .fail c :: rest ∧
      srcRead k s = .next (raise (.io c) { s with srcAnswers := rest })) ∨
    (∃ b rest, s.srcAnswers = .byte b :: rest ∧ srcRead k s = k b { s with srcAnswers := rest }) := by
  unfold srcRead
  split <;> simp_all

theorem snkWrite_of_nil {b : Byte} {k : State → Result} {s : State} (h : s.snkAnswers = []) :
    snkWrite b k s = .next s := by simp [snkWrite, h]

theorem snkWrite_of_fail {b : Byte} {k : State → Result} {s : State} {c : IoCause} {rest : List SnkAnswer}
    (h : s.snkAnswers = .fail c :: rest) :
    snkWrite b k s = .next (raise (.io c) { s with snkAnswers := rest }) := by simp [snkWrite, h]

theorem snkWrite_of_ack {b : Byte} {k : State → Result} {s : State} {rest : List SnkAnswer}
    (h : s.snkAnswers = .ack :: rest) :
    snkWrite b k s = k { s with snkAnswers := rest, acked := s.acked ++ [b] } := by simp [snkWrite, h]

theorem srcRead_of_nil {k : Byte → State → Result} {s : State} (h : s.srcAnswers = []) :
    srcRead k s = .next s := by simp [srcRead, h]

theorem srcRead_of_fail {k : Byte → State → Result} {s : State} {c : IoCause} {rest : List SrcAnswer}
    (h : s.srcAnswers = .fail c :: rest) :
    srcRead k s = .next (raise (.io c) { s with srcAnswers := rest }) := by simp [srcRead, h]

theorem srcRead_of_byte {k : Byte → State → Result} {s : State} {b : Byte} {rest : List SrcAnswer}
    (h : s.srcAnswers = .byte b :: rest) :
    srcRead k s = k b { s with srcAnswers := rest } := by simp [srcRead, h]

/-! ### Transfer bodies -/

/-- A one-byte encode that goes on holds, aborts with Io, or writes its byte and completes (R160, R162). -/
theorem encodeOneByte_cases {b : Byte} {s t : State} (h : encodeOneByte b s = .next t) :
    (s.snkAnswers = [] ∧ t = s) ∨
    (∃ c rest, s.snkAnswers = .fail c :: rest ∧ t = raise (.io c) { s with snkAnswers := rest }) ∨
    (∃ rest, s.snkAnswers = .ack :: rest ∧
      t = complete (countOne { s with snkAnswers := rest, acked := s.acked ++ [b] })) := by
  unfold encodeOneByte at h
  obtain ⟨hs, he⟩ | ⟨c, rest, hs, he⟩ | ⟨rest, hs, he⟩ := snkWrite_cases b (fun t => .next (complete (countOne t))) s <;>
    rw [he] at h <;> simp_all

/-- A one-byte decode that goes on holds, aborts with Io, or reads its byte and completes (R161, R163). -/
theorem decodeOneByte_cases {value : Byte → Word64} {s t : State} (h : decodeOneByte value s = .next t) :
    (s.srcAnswers = [] ∧ t = s) ∨
    (∃ c rest, s.srcAnswers = .fail c :: rest ∧ t = raise (.io c) { s with srcAnswers := rest }) ∨
    (∃ b rest, s.srcAnswers = .byte b :: rest ∧
      t = completeDecode (value b) (countOne { s with srcAnswers := rest })) := by
  unfold decodeOneByte at h
  obtain ⟨hs, he⟩ | ⟨c, rest, hs, he⟩ | ⟨b, rest, hs, he⟩ :=
    srcRead_cases (fun b t => .next (completeDecode (value b) (countOne t))) s <;>
    rw [he] at h <;> simp_all

/-- The state after an acknowledged write of EncodeVarStep, before it completes (R120). -/
def encoded (w : Nat) (rest : List SnkAnswer) (s : State) : State :=
  { countUp { s with snkAnswers := rest, acked := s.acked ++ [(encStep (lowBits w s.rem)).byte] } with
    rem := zext64 (encStep (lowBits w s.rem)).rem }

/-- EncodeVarStep holds, aborts with Io, or writes the shifter's byte and completes exactly when it was the last
(R120). -/
theorem encodeVarStep_cases {w : Nat} {s t : State} (h : encodeVarStep w s = .next t) :
    (s.snkAnswers = [] ∧ t = s) ∨
    (∃ c rest, s.snkAnswers = .fail c :: rest ∧ t = raise (.io c) { s with snkAnswers := rest }) ∨
    (∃ rest, s.snkAnswers = .ack :: rest ∧ (encStep (lowBits w s.rem)).last = true ∧ t = complete (encoded w rest s)) ∨
    (∃ rest, s.snkAnswers = .ack :: rest ∧ (encStep (lowBits w s.rem)).last = false ∧ t = encoded w rest s) := by
  simp only [encodeVarStep] at h
  generalize hk : (fun t : State =>
    (if (encStep (lowBits w s.rem)).last = true then
      Host.Outcome.next (complete { countUp t with rem := zext64 (encStep (lowBits w s.rem)).rem })
    else .next { countUp t with rem := zext64 (encStep (lowBits w s.rem)).rem } : Result)) = k at h
  obtain ⟨hs, he⟩ | ⟨c, rest, hs, he⟩ | ⟨rest, hs, he⟩ := snkWrite_cases (encStep (lowBits w s.rem)).byte k s
  · rw [he] at h; simp_all
  · rw [he] at h; simp_all
  · rw [he, ← hk] at h
    cases hl : (encStep (lowBits w s.rem)).last <;> simp only [hl] at h
    · exact .inr (.inr (.inr ⟨rest, hs, rfl, by cases h; rfl⟩))
    · exact .inr (.inr (.inl ⟨rest, hs, rfl, by cases h; rfl⟩))

/-- The state after the group of `b` is taken by DecodeVarStep (R140). -/
def gathered (w : Nat) (b : Byte) (s : State) : State :=
  countUp { s with acc := zext64 (decStep (lowBits w s.acc) s.status.count.toNat b) }

/-- Once a byte has arrived at an index below MAX, DecodeVarStep completes, raises TooBig, or goes on; at MAX or more it
stops (R140). -/
theorem takeGroup_cases (w max : Nat) (b : Byte) (s : State) :
    (s.status.count.toNat < max ∧ continuation b = false ∧
      takeGroup w max b s =
        .next (completeDecode (sext64 (decStep (lowBits w s.acc) s.status.count.toNat b)) (gathered w b s))) ∨
    (s.status.count.toNat < max ∧ continuation b = true ∧ (s.status.count + 1#4).toNat = max ∧
      takeGroup w max b s = .next (raise .tooBig (gathered w b s))) ∨
    (s.status.count.toNat < max ∧ continuation b = true ∧ (s.status.count + 1#4).toNat ≠ max ∧
      takeGroup w max b s = .next (gathered w b s)) ∨
    (max ≤ s.status.count.toNat ∧ takeGroup w max b s = .fault .decStepIndexOutOfRange) := by
  by_cases hk : s.status.count.toNat < max
  · cases hb : continuation b
    · exact .inl ⟨hk, rfl, by simp [takeGroup, hk, hb, gathered]⟩
    · by_cases hm : (s.status.count + 1#4).toNat = max
      · refine .inr (.inl ⟨hk, rfl, hm, ?_⟩)
        have hm' : (s.status.count.toNat + 1) % 16 = max := by simpa [BitVec.toNat_add] using hm
        simp [takeGroup, hk, hb, gathered, BitVec.toNat_add, hm']
      · refine .inr (.inr (.inl ⟨hk, rfl, hm, ?_⟩))
        have hm' : ¬ (s.status.count.toNat + 1) % 16 = max := by simpa [BitVec.toNat_add] using hm
        simp [takeGroup, hk, hb, gathered, BitVec.toNat_add, hm']
  · exact .inr (.inr (.inr ⟨by omega, by simp [takeGroup, hk]⟩))

/-- DecodeVarStep holds, aborts with Io, or reads a byte and completes, raises TooBig, or goes on (R140). -/
theorem decodeVarStep_cases {w max : Nat} {s t : State} (h : decodeVarStep w max s = .next t) :
    (s.srcAnswers = [] ∧ t = s) ∨
    (∃ c rest, s.srcAnswers = .fail c :: rest ∧ t = raise (.io c) { s with srcAnswers := rest }) ∨
    (∃ b rest, s.srcAnswers = .byte b :: rest ∧ s.status.count.toNat < max ∧ continuation b = false ∧
      t = completeDecode (sext64 (decStep (lowBits w s.acc) s.status.count.toNat b))
        (gathered w b { s with srcAnswers := rest })) ∨
    (∃ b rest, s.srcAnswers = .byte b :: rest ∧ s.status.count.toNat < max ∧ continuation b = true ∧
      (s.status.count + 1#4).toNat = max ∧ t = raise .tooBig (gathered w b { s with srcAnswers := rest })) ∨
    (∃ b rest, s.srcAnswers = .byte b :: rest ∧ s.status.count.toNat < max ∧ continuation b = true ∧
      (s.status.count + 1#4).toNat ≠ max ∧ t = gathered w b { s with srcAnswers := rest }) := by
  unfold decodeVarStep at h
  obtain ⟨hs, he⟩ | ⟨c, rest, hs, he⟩ | ⟨b, rest, hs, he⟩ := srcRead_cases (takeGroup w max) s
  · rw [he] at h; simp_all
  · rw [he] at h; simp_all
  · rw [he] at h
    obtain ⟨h1, h2, h3⟩ | ⟨h1, h2, h3, h4⟩ | ⟨h1, h2, h3, h4⟩ | ⟨h1, h2⟩ :=
      takeGroup_cases w max b { s with srcAnswers := rest }
    · rw [h3] at h
      exact .inr (.inr (.inl ⟨b, rest, hs, h1, h2, by cases h; rfl⟩))
    · rw [h4] at h
      exact .inr (.inr (.inr (.inl ⟨b, rest, hs, h1, h2, h3, by cases h; rfl⟩)))
    · rw [h4] at h
      exact .inr (.inr (.inr (.inr ⟨b, rest, hs, h1, h2, h3, by cases h; rfl⟩)))
    · rw [h2] at h
      cases h

/-! ### Instructions and steps -/

/-- The transfer body OP's instruction selects (R44). -/
def transferBody : Instr → State → Result
  | .boolEnc _ => fun s => encodeOneByte (boolByte s.rem) s
  | .byteEnc _ => fun s => encodeOneByte (lowBits 8 s.rem) s
  | .varintEnc _ => encodeVarStep 32
  | .varlongEnc _ => encodeVarStep 64
  | .boolDec _ => decodeOneByte boolValue
  | .byteDec _ => decodeOneByte fun b => sext64 b
  | .varintDec _ => decodeVarStep 32 5
  | .varlongDec _ => decodeVarStep 64 10

/-- What acceptance of an instruction does (R43). -/
def acceptBody : Instr → State → State
  | .boolEnc x => acceptEncode 0x00#8 .bool x
  | .byteEnc x => acceptEncode 0x01#8 .byte x
  | .varintEnc x => acceptEncode 0x02#8 .varint x
  | .varlongEnc x => acceptEncode 0x03#8 .varlong x
  | .boolDec _ => acceptDecode 0x08#8
  | .byteDec _ => acceptDecode 0x09#8
  | .varintDec _ => acceptDecode 0x0A#8
  | .varlongDec _ => acceptDecode 0x0B#8

/-- In IDLE every instruction is accepted (R43). -/
theorem exec_of_idle {s : State} (h : s.fsm = .idle) (i : Instr) : exec i s = .next (acceptBody i s) := by
  cases i <;> simp [exec, execBoolEnc, execByteEnc, execVarintEnc, execVarlongEnc, execBoolDec, execByteDec,
    execVarintDec, execVarlongDec, h, acceptBody]

/-- In RUN every instruction takes its transfer body (R44). -/
theorem exec_of_run {s : State} (h : s.fsm = .run) (i : Instr) : exec i s = transferBody i s := by
  cases i <;> simp [exec, execBoolEnc, execByteEnc, execVarintEnc, execVarlongEnc, execBoolDec, execByteDec,
    execVarintDec, execVarlongDec, h, transferBody]

/-- Everything a step can answer (R42): a reset; in IDLE nothing offered, an acceptance, or an illegal command; in RUN
the transfer body of OP's command, or a stop when OP names none. -/
theorem step_cases (s : State) :
    (∃ l rest, s.resetInput = .asserted l :: rest ∧ step s = .next (resetStep l { s with resetInput := rest })) ∨
    (s.resetInput.head? ≠ some (.asserted true) ∧ s.resetInput.head? ≠ some (.asserted false) ∧
      step s = blockStep { s with resetInput := s.resetInput.tail }) := by
  unfold step takeResetSample
  cases h : s.resetInput with
  | nil =>
    have hs : s = { s with resetInput := ([] : List ResetSample).tail } := by cases s; simp_all
    exact .inr ⟨by simp, by simp, congrArg blockStep hs⟩
  | cons r rest =>
    cases r with
    | deasserted => exact .inr ⟨by simp, by simp, by simp⟩
    | asserted l => exact .inl ⟨l, rest, rfl, rfl⟩

theorem Fsm.idle_or_run (f : Fsm) : f = .idle ∨ f = .run := by cases f <;> simp

theorem decode_ok_or_error (c : Command) : (∃ i, decode c = .ok i) ∨ ∃ e, decode c = .error e := by
  cases decode c <;> simp

/-- Everything a step with reset not asserted can answer. -/
theorem blockStep_cases (s : State) :
    (s.fsm = .idle ∧ s.offers = [] ∧ blockStep s = .next s) ∨
    (∃ c later i, s.fsm = .idle ∧ s.offers = c :: later ∧ decode c = .ok i ∧
      blockStep s = .next (acceptBody i { s with offers := later })) ∨
    (∃ c later e, s.fsm = .idle ∧ s.offers = c :: later ∧ decode c = .error e ∧
      blockStep s = .next (acceptIllegal { s with offers := later })) ∨
    (∃ i, s.fsm = .run ∧ decode ⟨s.op, 0#64⟩ = .ok i ∧ blockStep s = transferBody i s) ∨
    (∃ e, s.fsm = .run ∧ decode ⟨s.op, 0#64⟩ = .error e ∧ blockStep s = .fault .opNotLegalInRun) := by
  obtain hf | hf := Fsm.idle_or_run s.fsm
  · obtain ho | ⟨c, later, ho⟩ : s.offers = [] ∨ ∃ c later, s.offers = c :: later := by
      cases s.offers <;> simp
    · exact .inl ⟨hf, ho, by simp [blockStep, hf, takeOffer, ho]⟩
    · obtain ⟨i, hd⟩ | ⟨e, hd⟩ := decode_ok_or_error c
      · have hi : ({ s with offers := later } : State).fsm = .idle := hf
        refine .inr (.inl ⟨c, later, i, hf, ho, hd, ?_⟩)
        rw [← exec_of_idle hi i]
        simp only [blockStep, hf, takeOffer, ho, hd]
      · exact .inr (.inr (.inl ⟨c, later, e, hf, ho, hd, by simp [blockStep, hf, takeOffer, ho, hd]⟩))
  · obtain ⟨i, hd⟩ | ⟨e, hd⟩ := decode_ok_or_error ⟨s.op, 0#64⟩
    · refine .inr (.inr (.inr (.inl ⟨i, hf, hd, ?_⟩)))
      rw [← exec_of_run hf i, blockStep, hf]
      simp only [commandInProgress, hd]
    · exact .inr (.inr (.inr (.inr ⟨e, hf, hd, by simp [blockStep, hf, commandInProgress, hd]⟩)))

/-- With reset not asserted a step is the block's own step, its reset sample taken (R210). -/
theorem step_of_notReset {s : State} (h : NotReset 1 s) :
    step s = blockStep { s with resetInput := s.resetInput.tail } := by
  obtain ⟨l, rest, hr, -⟩ | ⟨-, -, hs⟩ := step_cases s
  · exact absurd (h (.asserted l) (by simp [hr])) (by simp)
  · exact hs

/-- With reset asserted a step is the reset step (R210). -/
theorem step_of_asserted {s : State} {l : Bool} {rest : List ResetSample} (h : s.resetInput = .asserted l :: rest) :
    step s = .next (resetStep l { s with resetInput := rest }) := by simp [step, takeResetSample, h]

/-! ### Where a transfer goes on -/

/-- A write goes on if what follows its Ack does. -/
theorem snkWrite_next {b : Byte} {k : State → Result} {s : State} (hk : ∀ t, ∃ u, k t = .next u) :
    ∃ u, snkWrite b k s = .next u := by
  obtain ⟨-, h⟩ | ⟨_, _, -, h⟩ | ⟨_, -, h⟩ := snkWrite_cases b k s
  · exact ⟨_, h⟩
  · exact ⟨_, h⟩
  · exact h ▸ hk _

/-- A read goes on if what follows its byte does. -/
theorem srcRead_next {k : Byte → State → Result} {s : State} (hk : ∀ b t, ∃ u, k b t = .next u) :
    ∃ u, srcRead k s = .next u := by
  obtain ⟨-, h⟩ | ⟨_, _, -, h⟩ | ⟨_, _, -, h⟩ := srcRead_cases k s
  · exact ⟨_, h⟩
  · exact ⟨_, h⟩
  · exact h ▸ hk _ _

/-- EncodeVarStep always goes on (R120). -/
theorem encodeVarStep_next (w : Nat) (s : State) : ∃ u, encodeVarStep w s = .next u := by
  unfold encodeVarStep
  exact snkWrite_next fun t => by dsimp only; split <;> exact ⟨_, rfl⟩

/-- DecodeVarStep goes on, unless a byte arrives at an index of MAX or more (R104, R140). -/
theorem decodeVarStep_next_or_stop (w max : Nat) (s : State) :
    (∃ u, decodeVarStep w max s = .next u) ∨
    (decodeVarStep w max s = .fault .decStepIndexOutOfRange ∧ max ≤ s.status.count.toNat ∧
      ∃ b rest, s.srcAnswers = .byte b :: rest) := by
  unfold decodeVarStep
  obtain ⟨-, h⟩ | ⟨_, _, -, h⟩ | ⟨b, rest, hs, h⟩ := srcRead_cases (takeGroup w max) s <;> rw [h]
  · exact .inl ⟨_, rfl⟩
  · exact .inl ⟨_, rfl⟩
  · obtain ⟨-, -, h⟩ | ⟨-, -, -, h⟩ | ⟨-, -, -, h⟩ | ⟨hm, h⟩ := takeGroup_cases w max b { s with srcAnswers := rest } <;>
      rw [h]
    · exact .inl ⟨_, rfl⟩
    · exact .inl ⟨_, rfl⟩
    · exact .inl ⟨_, rfl⟩
    · exact .inr ⟨rfl, hm, b, rest, hs⟩

end Sys2Proof.Machine
end

