-- ==== Sys2Proof/Laws/PerInstr.lean ====
section
/-! SUPPORT. The per-instruction family `Legality`: each constructor's command has a legal opcode (30_encoding.md R74,
R76), of the fields R71 gives it. -/

namespace Sys2Proof.Laws.Legality

/-- The command of the instruction is well-formed: RSV = 0000 and TYPE is assigned (R71, R72, R76). -/
def Statement (i : Instr) : Prop := i.wellFormed = true → legal (encode i).op = true ∧ rsvClear (encode i).op = true

theorem boolEnc (x : Word64) : Statement (.boolEnc x) :=
  fun _ => (by decide : legal 0x00#8 = true ∧ rsvClear 0x00#8 = true)

theorem byteEnc (x : Word64) : Statement (.byteEnc x) :=
  fun _ => (by decide : legal 0x01#8 = true ∧ rsvClear 0x01#8 = true)

theorem varintEnc (x : Word64) : Statement (.varintEnc x) :=
  fun _ => (by decide : legal 0x02#8 = true ∧ rsvClear 0x02#8 = true)

theorem varlongEnc (x : Word64) : Statement (.varlongEnc x) :=
  fun _ => (by decide : legal 0x03#8 = true ∧ rsvClear 0x03#8 = true)

theorem boolDec (x : Word64) : Statement (.boolDec x) :=
  fun _ => (by decide : legal 0x08#8 = true ∧ rsvClear 0x08#8 = true)

theorem byteDec (x : Word64) : Statement (.byteDec x) :=
  fun _ => (by decide : legal 0x09#8 = true ∧ rsvClear 0x09#8 = true)

theorem varintDec (x : Word64) : Statement (.varintDec x) :=
  fun _ => (by decide : legal 0x0A#8 = true ∧ rsvClear 0x0A#8 = true)

theorem varlongDec (x : Word64) : Statement (.varlongDec x) :=
  fun _ => (by decide : legal 0x0B#8 = true ∧ rsvClear 0x0B#8 = true)


end Sys2Proof.Laws.Legality
end

