-- ==== Sys2Proof/Laws/Shifter.lean ====
section
/-! SUPPORT. The shifter in arithmetic (40_shifter.md R101 to R107): each function of the shifter is unfolded here once. -/

namespace Sys2Proof.Machine

/-- `zext_64` keeps the number a bit pattern of at most 64 bits spells. -/
theorem zext64_toNat {n : Nat} (h : n ≤ 64) (v : BitVec n) : (zext64 v).toNat = v.toNat := by
  have hv : v.toNat < 2 ^ 64 := lt_of_lt_of_le v.isLt (Nat.pow_le_pow_right (by decide) h)
  simp only [zext64, BitVec.toNat_setWidth, Nat.mod_eq_of_lt hv]

/-- `x[w-1:0]` is the remainder modulo 2^w. -/
theorem lowBits_toNat (w : Nat) (x : Word64) : (lowBits w x).toNat = x.toNat % 2 ^ w := by
  simp [lowBits]

/-- A number of fewer than `w` bits passes through `lowBits` and back. -/
theorem lowBits_zext64 {w : Nat} (h : w ≤ 64) (v : BitVec w) : lowBits w (zext64 v) = v := by
  apply BitVec.eq_of_toNat_eq
  rw [lowBits_toNat, zext64_toNat h, Nat.mod_eq_of_lt v.isLt]

/-- The low 64 bits of a 64-bit register are the register. -/
@[simp] theorem lowBits_64 (x : Word64) : lowBits 64 x = x := by
  apply BitVec.eq_of_toNat_eq
  rw [lowBits_toNat, Nat.mod_eq_of_lt x.isLt]

/-- `zext_64` at width 64 is the identity. -/
@[simp] theorem zext64_64 (x : Word64) : zext64 x = x := by simp [zext64]

/-- `sext_64` at width 64 is the identity. -/
@[simp] theorem sext64_64 (x : Word64) : sext64 x = x := by simp [sext64]

/-- `sext_64` keeps the signed value of a pattern of at most 64 bits (R10). -/
theorem sext64_toInt {n : Nat} (h : n ≤ 64) (v : BitVec n) : (sext64 v).toInt = v.toInt :=
  BitVec.toInt_signExtend_of_le h

/-- `sext_64` written through the signed value. -/
theorem sext64_eq_ofInt {n : Nat} (v : BitVec n) : sext64 v = BitVec.ofInt 64 v.toInt := rfl

/-- A wire byte in arithmetic: the group, plus 128 when more bytes follow (R80). -/
theorem wireByte_toNat (more : Bool) (g : BitVec 7) :
    (wireByte more g).toNat = (if more then 128 else 0) + g.toNat := by
  revert more g; decide

/-- The continuation bit says whether the byte is 128 or more (R80). -/
theorem continuation_eq (b : Byte) : continuation b = decide (128 ≤ b.toNat) := by
  revert b; decide

/-- The group of a byte is its remainder modulo 128 (R80). -/
theorem group_toNat (b : Byte) : (group b).toNat = b.toNat % 128 := by
  simp [group]

@[simp] theorem continuation_wireByte (more : Bool) (g : BitVec 7) : continuation (wireByte more g) = more := by
  revert more g; decide

@[simp] theorem group_wireByte (more : Bool) (g : BitVec 7) : group (wireByte more g) = g := by
  revert more g; decide

/-- The remaining value after one EncStep (R101, R103). -/
theorem encStep_rem_toNat {w : Nat} (r : BitVec w) : (encStep r).rem.toNat = r.toNat / 128 := by
  simp [encStep, Nat.shiftRight_eq_div_pow]

/-- An EncStep is the last exactly when fewer than 8 bits are left (R101, R102). -/
theorem encStep_last {w : Nat} (r : BitVec w) : (encStep r).last = decide (r.toNat < 128) := by
  have h := encStep_rem_toNat r
  have hl : (encStep r).last = ((encStep r).rem == 0#w) := rfl
  rw [hl, Bool.eq_iff_iff, beq_iff_eq, decide_eq_true_iff, ← BitVec.toNat_inj, h]
  simp only [BitVec.toNat_ofNat, Nat.zero_mod]
  omega

/-- The byte of an EncStep (R101): the low 7 bits, with the continuation bit unless it is the last. -/
theorem encStep_byte {w : Nat} (r : BitVec w) :
    (encStep r).byte = wireByte (decide (128 ≤ r.toNat)) (BitVec.ofNat 7 r.toNat) := by
  have hl := encStep_last r
  have hb : (encStep r).byte = wireByte (!(encStep r).last) (r.extractLsb' 0 7) := rfl
  rw [hb, hl]
  congr 1
  · rw [← decide_not, decide_eq_decide]
    omega

/-- A DecStep in arithmetic, when the groups gathered so far lie below bit 7k: the group is added at bit offset 7k, and
what passes bit W-1 is lost (R104, R106, R107). -/
theorem decStep_toNat {w k : Nat} {acc : BitVec w} (b : Byte) (hw : 7 ≤ w) (hacc : acc.toNat < 2 ^ (7 * k)) :
    (decStep acc k b).toNat = (acc.toNat + b.toNat % 128 * 2 ^ (7 * k)) % 2 ^ w := by
  have hg : (group b).toNat < 2 ^ w := lt_of_lt_of_le (group b).isLt (Nat.pow_le_pow_right (by decide) hw)
  have hor := Nat.two_pow_add_eq_or_of_lt hacc (group b).toNat
  have hacc' : acc.toNat % 2 ^ w = acc.toNat := Nat.mod_eq_of_lt acc.isLt
  rw [decStep, BitVec.toNat_or, BitVec.toNat_shiftLeft, BitVec.toNat_setWidth, Nat.mod_eq_of_lt hg,
    Nat.shiftLeft_eq, ← hacc', ← Nat.or_mod_two_pow, hacc', ← group_toNat, Nat.or_comm, Nat.mul_comm, ← hor,
    Nat.add_comm]

end Sys2Proof.Machine
end

