-- ==== Sys2Proof/Tests/Slice0.lean ====
section
/-! SUPPORT. Small tests, each about one step or one function, with expected results from spec/95_test_vectors.md or
worked out by hand from the rule cited; and for each obligation with hypotheses a witness that meets them. -/

namespace Sys2Proof.Tests

open Sys2Proof.Machine
open Sys2Proof.Config (IoCause)

/-- The next state of an outcome, where there is one. -/
def after (o : Result) : Option State :=
  match o with
  | .next s => some s
  | .fault _ => none
  | .refused _ => none

theorem eq_next_of_after {o : Result} {t : State} (h : after o = some t) : o = .next t := by
  cases o <;> simp_all [after]

/-- A command in progress with this OP, REM, ACC and COUNT, and these port answers. -/
def running (op : BitVec 8) (rem acc : Word64) (count : BitVec 4) (src : List SrcAnswer) (snk : List SnkAnswer) : State :=
  { State.reset with
    fsm := .run, status := { busy := true, done := false, valid := false, err := .none, count := count }
    op := op, rem := rem, acc := acc, srcAnswers := src, snkAnswers := snk }

/-- IDLE after reset, with these commands offered and these port answers. -/
def offering (cs : List Command) (src : List SrcAnswer) (snk : List SnkAnswer) : State :=
  { State.reset with offers := cs, srcAnswers := src, snkAnswers := snk }

/-- A failure value: the one whose bits are all 0, which there is at every width IOCAUSE_W. -/
def cause : IoCause := 0#_

/-- What a host and the streams show of an outcome: STATUS, RESULT, IOCAUSE, the bytes acknowledged, and what is left
of the source. -/
def shown (o : Result) : Option (BitVec 16 × Word64 × IoCause × List Byte × List SrcAnswer) :=
  (after o).map fun t => (readStatus t, readResult t, readIocause t, t.acked, t.srcAnswers)

/-! ## Decoding: words written out from the opcode map (R74) -/

theorem test_decode_boolEnc : decodeTableWord 8 0b00000000 = some (.boolEnc 0#64) := by decide
theorem test_decode_byteEnc : decodeTableWord 8 0b00000001 = some (.byteEnc 0#64) := by decide
theorem test_decode_varintEnc : decodeTableWord 8 0b00000010 = some (.varintEnc 0#64) := by decide
theorem test_decode_varlongEnc : decodeTableWord 8 0b00000011 = some (.varlongEnc 0#64) := by decide
theorem test_decode_boolDec : decodeTableWord 8 0b00001000 = some (.boolDec 0#64) := by decide
theorem test_decode_byteDec : decodeTableWord 8 0b00001001 = some (.byteDec 0#64) := by decide
theorem test_decode_varintDec : decodeTableWord 8 0b00001010 = some (.varintDec 0#64) := by decide
theorem test_decode_varlongDec : decodeTableWord 8 0b00001011 = some (.varlongDec 0#64) := by decide
/-- Vectors V-ILL-1 to V-ILL-4: reserved TYPE and non-zero RSV. -/
theorem test_decode_rejects :
    [0x04, 0x0F, 0x12, 0xFF].map (decodeTableWord 8) = [none, none, none, none] := by decide

/-! ## WellFormed: an ill-formed term for each check, which it refuses -/

theorem test_rsvClear_refuses : rsvClear 0x12#8 = false ∧ typeAssigned 0x12#8 = true ∧ legal 0x12#8 = false := by decide
theorem test_typeAssigned_refuses : typeAssigned 0x04#8 = false ∧ rsvClear 0x04#8 = true ∧ legal 0x04#8 = false := by
  decide
theorem test_command_wellFormed_refuses :
    (Command.wellFormed ⟨0x0C#8, 0#64⟩) = false ∧ (Command.wellFormed ⟨0x0B#8, 0#64⟩) = true := by decide
theorem test_canonical_refuses :
    [Instr.boolEnc 2#64, .byteEnc 0x1FF#64, .varintEnc 0x100000005#64, .boolDec 1#64, .byteDec 1#64, .varintDec 1#64,
      .varlongDec 1#64].map Instr.canonical = List.replicate 7 false := by decide

/-! ## The shifter (vectors V-SH) -/

theorem test_encStep32 :
    [0#32, 0x7F#32, 0x80#32, 0x12C#32, 0xFFFFFFFF#32].map encStep =
      [⟨0x00#8, 0#32, true⟩, ⟨0x7F#8, 0#32, true⟩, ⟨0x80#8, 1#32, false⟩, ⟨0xAC#8, 2#32, false⟩,
        ⟨0xFF#8, 0x1FFFFFF#32, false⟩] := by decide
theorem test_encStep64 :
    encStep 0xFFFFFFFFFFFFFFFF#64 = ⟨0xFF#8, 0x01FFFFFFFFFFFFFF#64, false⟩ ∧ encStep 1#64 = ⟨0x01#8, 0#64, true⟩ := by
  decide
theorem test_decStep32 :
    decStep 0#32 0 0xAC#8 = 0x2C#32 ∧ decStep 0x2C#32 1 0x02#8 = 0x12C#32 ∧
    decStep 0x0FFFFFFF#32 4 0x0F#8 = 0xFFFFFFFF#32 ∧ decStep 0#32 4 0x7F#8 = 0xF0000000#32 ∧
    decStep 0#32 4 0x10#8 = 0#32 := by decide
theorem test_decStep64 :
    decStep 0#64 9 0x01#8 = 0x8000000000000000#64 ∧ decStep 0#64 9 0x7F#8 = 0x8000000000000000#64 ∧
    decStep 0#64 9 0x7E#8 = 0#64 ∧ decStep 0x1234#64 3 0x80#8 = 0x1234#64 := by decide
/-- Vectors V-VIE-12, V-VLE-7. -/
theorem test_canonicalBytes :
    canonicalBytes 5 25565 = [0xDD#8, 0xC7#8, 0x01#8] ∧
    canonicalBytes 10 0xFFFFFFFF80000000 =
      [0x80#8, 0x80#8, 0x80#8, 0x80#8, 0xF8#8, 0xFF#8, 0xFF#8, 0xFF#8, 0xFF#8, 0x01#8] := by decide

/-! ## One step of each command -/

/-- R43: acceptance zero-extends the slice, whatever the bits above it (vector V-VIE-23). -/
theorem test_accept_varintEnc :
    (after (exec (.varintEnc 0xFFFFFFFFFFFFFFFF#64) State.reset)).map (fun t => (readStatus t, t.rem, t.op)) =
      some (0x0001#16, 0xFFFFFFFF#64, 0x02#8) := by decide
/-- Vector V-RST-4, first byte of 300. -/
theorem test_varintEnc_goes_on :
    shown (exec (.varintEnc 0#64) (running 0x02#8 0x12C#64 0#64 0#4 [] [.ack])) =
      some (0x0101#16, 0#64, 0, [0xAC#8], []) := by decide
/-- Vector V-VIE-19, the fifth byte of -1. -/
theorem test_varlongEnc_last :
    shown (exec (.varlongEnc 0#64) (running 0x03#8 1#64 0#64 9#4 [] [.ack])) =
      some (0x0A02#16, 0#64, 0, [0x01#8], []) := by decide
/-- Vector V-IO-3: the third write of -1 fails. -/
theorem test_varlongEnc_fail (c : IoCause) :
    (after (exec (.varlongEnc 0#64) (running 0x03#8 0x3FFFFFFFFFFFF#64 0#64 2#4 [] [.fail c]))).map
        (fun t => (t.status, t.iocause, t.acked)) =
      some ({ busy := false, done := true, valid := false, err := .io, count := 2#4 }, c, []) := rfl
/-- Vector V-VID-7, the fifth byte of -1: it completes at index 4 (R149). -/
theorem test_varintDec_minus_one :
    shown (exec (.varintDec 0#64) (running 0x0A#8 0#64 0x0FFFFFFF#64 4#4 [.byte 0x0F#8, .byte 5#8] [])) =
      some (0x0506#16, 0xFFFFFFFFFFFFFFFF#64, 0, [], [.byte 5#8]) := by decide
/-- Vector V-VID-TB1. -/
theorem test_varintDec_tooBig :
    shown (exec (.varintDec 0#64) (running 0x0A#8 0#64 0#64 4#4 [.byte 0x80#8, .byte 1#8] [])) =
      some (0x0512#16, 0#64, 0, [], [.byte 1#8]) := by decide
/-- Vector V-VLD-4: the same five bytes at width 64. -/
theorem test_varlongDec_wide :
    shown (exec (.varlongDec 0#64) (running 0x0B#8 0#64 0x0FFFFFFF#64 4#4 [.byte 0x0F#8] [])) =
      some (0x0506#16, 0xFFFFFFFF#64, 0, [], []) := by decide
/-- Vector V-VLD-IO1. -/
theorem test_varlongDec_fail (c : IoCause) :
    (after (exec (.varlongDec 0#64) (running 0x0B#8 0#64 0#64 9#4 [.fail c] []))).map
        (fun t => (t.status, t.iocause, t.result)) =
      some ({ busy := false, done := true, valid := false, err := .io, count := 9#4 }, c, 0#64) := rfl
/-- Vector V-BOOL-1. -/
theorem test_boolEnc :
    shown (exec (.boolEnc 0#64) (running 0x00#8 1#64 0#64 0#4 [] [.ack])) =
      some (0x0102#16, 0#64, 0, [0x01#8], []) := by decide
/-- Vector V-BOOL-3. -/
theorem test_accept_boolEnc :
    (after (exec (.boolEnc 2#64) State.reset)).map (fun t => t.rem) = some 0#64 := by decide
/-- Vector V-BOOL-7. -/
theorem test_boolDec :
    shown (exec (.boolDec 0#64) (running 0x08#8 0#64 0#64 0#4 [.byte 0x05#8] [])) =
      some (0x0106#16, 1#64, 0, [], []) := by decide
/-- Vector V-BYTE-3. -/
theorem test_byteEnc :
    shown (exec (.byteEnc 0#64) (running 0x01#8 0x80#64 0#64 0#4 [] [.ack])) =
      some (0x0102#16, 0#64, 0, [0x80#8], []) := by decide
/-- Vector V-BYTE-5. -/
theorem test_accept_byteEnc :
    (after (exec (.byteEnc 0x1FF#64) State.reset)).map (fun t => t.rem) = some 0xFF#64 := by decide
/-- Vector V-BYTE-9. -/
theorem test_byteDec :
    shown (exec (.byteDec 0#64) (running 0x09#8 0#64 0#64 0#4 [.byte 0x80#8] [])) =
      some (0x0106#16, 0xFFFFFFFFFFFFFF80#64, 0, [], []) := by decide

/-! ## Steps -/

/-- The placed word is accepted as the first command after reset. -/
theorem test_step_placed_word :
    (after (step (State.reset.withFetchWord 8 0x0A))).map (fun t => (readStatus t, t.op, t.offers)) =
      some (0x0001#16, 0x0A#8, []) := by decide
/-- Vector V-ILL-5: RESULT keeps 300, but it has no meaning any more. -/
theorem test_step_illegal :
    (after (step { offering [⟨0x04#8, 0#64⟩] [] [] with
        result := 300#64, status := { busy := false, done := true, valid := true, err := .none, count := 2#4 } })).map
      (fun t => (readStatus t, readResult t, resultValue t)) = some (0x0032#16, 300#64, none) := by decide
/-- Vector V-RST-2: reset after two transfer steps; the two bytes stay consumed. -/
theorem test_step_reset :
    (after (step { running 0x0A#8 0#64 0#64 2#4 [] [] with resetInput := [.asserted false], result := 9#64 })).map
      (fun t => (readStatus t, t.fsm, t.result, t.op)) = some (0x0000#16, .idle, 9#64, 0x0A#8) := by decide
/-- Vector V-RST-3: an offer while BUSY is not accepted. -/
theorem test_step_offer_while_busy :
    (after (step { running 0x0A#8 0#64 0#64 2#4 [] [] with offers := [⟨0x00#8, 1#64⟩] })).map
      (fun t => (readStatus t, t.offers)) = some (0x0201#16, [⟨0x00#8, 1#64⟩]) := by decide

/-! ## The assembler (R88 to R91) -/

theorem test_assemble_varint : assembleText "varint.enc -2147483648 ; P5".toList = some [⟨0x02#8, 0x80000000#64⟩] := by
  decide
theorem test_assemble_raw :
    assembleText ".cmd 0x02, 0x0000_0001_0000_0005".toList = some [⟨0x02#8, 0x100000005#64⟩] := by decide
theorem test_assemble_refuses :
    ["bool.enc 2", "byte.enc 128", "byte.enc 0x100", "varint.dec 0", "bool.enc"].map (fun l => assembleText l.toList) =
      [none, none, none, none, none] := by decide
theorem test_disassemble :
    disassembleText ⟨0x02#8, 300#64⟩ = "varint.enc 300".toList ∧
    disassembleText ⟨0x0A#8, 0xAB#64⟩ = ".cmd 0x0A, 0x00000000000000AB".toList := by decide

/-! ## Witnesses: a concrete state and operands that meet the hypotheses of each obligation -/

theorem witness_DecodeOfEncode : (Instr.varintEnc 0xFFFFFFFFFFFFFFFF#64).wellFormed = true := by decide
theorem witness_EncodeOfDecode : decode ⟨0x0B#8, 5#64⟩ = .ok (.varlongDec 5#64) := by decide
theorem witness_Decoder_clauses :
    (0x10#8).extractLsb' 4 4 ≠ 0#4 ∧ ((0x04#8).extractLsb' 4 4 = 0#4 ∧ (0x04#8).getLsbD 2 = true) ∧
    ((0x0B#8).extractLsb' 4 4 = 0#4 ∧ (0x0B#8).getLsbD 2 = false) := by decide

/-- An IDLE state with a legal command offered and one sample of a reset input that is not asserted. -/
def sOffer : State := { offering [⟨0x0A#8, 0#64⟩] [.byte 0x80#8] [] with resetInput := [.deasserted, .asserted true] }
theorem witness_IdleStep :
    NotReset 1 sOffer ∧ sOffer.fsm = .idle ∧ sOffer.offers = ⟨0x0A#8, 0#64⟩ :: [] ∧
    decode ⟨0x0A#8, 0#64⟩ = .ok (.varintDec 0#64) := by decide

/-- A VARINT.DEC in progress at index 4 with a terminating byte to come. -/
def sDec : State := running 0x0A#8 0#64 0x0FFFFFFF#64 4#4 [.byte 0x0F#8, .fail cause] [.ack]
theorem witness_RunStep :
    NotReset 1 sDec ∧ sDec.fsm = .run ∧ decode ⟨sDec.op, 9#64⟩ = .ok (.varintDec 9#64) := by decide
theorem witness_PlacedWord : decodeTableWord 8 0x03 = some (.varlongEnc 0#64) := by decide
theorem witness_Illegal :
    let s := offering [⟨0x0C#8, 1#64⟩] [] []
    NotReset 1 s ∧ s.fsm = .idle ∧ s.status.busy = false ∧ s.offers = ⟨0x0C#8, 1#64⟩ :: [] ∧ legal 0x0C#8 = false := by
  decide

/-- A VARINT.DEC and a VARINT.ENC in progress, in reset. -/
def sDecReset : State := { sDec with resetInput := [.asserted true] }
def sEncReset : State := { running 0x02#8 0x12C#64 0#64 0#4 [] [.ack] with resetInput := [.asserted true] }
theorem witness_ResetStep :
    sDecReset.resetInput = .asserted true :: [] ∧ (State.reset.fsm = .idle ∨ true = false) := by decide
theorem witness_ResetWithdraws_dec :
    sDecReset.resetInput = .asserted true :: [] ∧ sDecReset.fsm = .run ∧ sDecReset.op.getLsbD 3 = true ∧
    step sDecReset = .next (resetStep true sDec) := ⟨by decide, by decide, by decide, eq_next_of_after (by decide)⟩
theorem witness_ResetWithdraws_enc :
    sEncReset.resetInput = .asserted true :: [] ∧ sEncReset.fsm = .run ∧ sEncReset.op.getLsbD 3 = false ∧
    step sEncReset = .next (resetStep true { sEncReset with resetInput := [] }) :=
  ⟨by decide, by decide, by decide, eq_next_of_after (by decide)⟩

theorem witness_ResetWithdraws_none :
    let s := { sDec with resetInput := [.asserted false] }
    s.resetInput = .asserted false :: [] ∧ s.fsm = .run ∧ step s = .next (resetStep false sDec) :=
  ⟨by decide, by decide, eq_next_of_after (by decide)⟩

theorem inv_reset : Inv State.reset := by constructor <;> decide
theorem inv_sDec : Inv sDec := by constructor <;> decide
/-- A VARLONG.ENC in progress at index 9, its port silent. -/
def sSilent : State := running 0x03#8 1#64 0#64 9#4 [] []
theorem inv_sSilent : Inv sSilent := by constructor <;> decide
/-- A VARLONG.DEC in progress at index 9, its port silent. -/
def sSilentDec : State := running 0x0B#8 0#64 0x7FFFFFFFFFFFFFFF#64 9#4 [] []
theorem inv_sSilentDec : Inv sSilentDec := by constructor <;> decide
theorem witness_Holds_idle : Inv State.reset ∧ NotReset 1 State.reset ∧ State.reset.fsm = .idle ∧ State.reset.offers = [] :=
  ⟨inv_reset, by decide⟩
theorem witness_Holds_enc :
    Inv sSilent ∧ NotReset 1 sSilent ∧ sSilent.fsm = .run ∧ sSilent.op.getLsbD 3 = false ∧ sSilent.snkAnswers = [] :=
  ⟨inv_sSilent, by decide⟩
theorem witness_Holds_dec :
    Inv sSilentDec ∧ NotReset 1 sSilentDec ∧ sSilentDec.fsm = .run ∧ sSilentDec.op.getLsbD 3 = true ∧
      sSilentDec.srcAnswers = [] :=
  ⟨inv_sSilentDec, by decide⟩
theorem witness_OffersWhileBusy : sDec.fsm = .run ∧ (after (step sDec)).isSome = true := by decide

theorem witness_BoolEnc :
    State.reset.fsm = .idle ∧
    (running 0x00#8 1#64 0#64 0#4 [] [.ack]).fsm = .run ∧ (running 0x00#8 1#64 0#64 0#4 [] [.ack]).snkAnswers = .ack :: [] ∧
    (running 0x00#8 0#64 0#64 0#4 [] [.fail cause]).snkAnswers = .fail cause :: [] := by decide
theorem witness_ByteEnc :
    (running 0x01#8 0xFF#64 0#64 0#4 [] [.ack]).fsm = .run ∧
    (running 0x01#8 0xFF#64 0#64 0#4 [] [.ack]).snkAnswers = .ack :: [] ∧
    (running 0x01#8 0#64 0#64 0#4 [] [.fail cause]).snkAnswers = .fail cause :: [] := by decide
theorem witness_BoolDec :
    (running 0x08#8 0#64 0#64 0#4 [.byte 0x00#8] []).fsm = .run ∧
    (running 0x08#8 0#64 0#64 0#4 [.byte 0x00#8] []).srcAnswers = .byte 0x00#8 :: [] ∧
    (running 0x08#8 0#64 0#64 0#4 [.fail cause] []).srcAnswers = .fail cause :: [] := by decide
theorem witness_ByteDec :
    (running 0x09#8 0#64 0#64 0#4 [.byte 0x80#8] []).fsm = .run ∧
    (running 0x09#8 0#64 0#64 0#4 [.byte 0x80#8] []).srcAnswers = .byte 0x80#8 :: [] ∧
    (running 0x09#8 0#64 0#64 0#4 [.fail cause] []).srcAnswers = .fail cause :: [] := by decide
theorem witness_BoolDecodeThenEncode :
    let s := offering [] [.byte 0x05#8] [.ack]
    s.fsm = .idle ∧ s.srcAnswers = .byte 0x05#8 :: [] ∧ s.snkAnswers = .ack :: [] := by decide
theorem witness_ByteCodec :
    let s := offering [] [.byte 0x80#8] [.ack]
    s.fsm = .idle ∧ s.srcAnswers = .byte 0x80#8 :: [] ∧ s.snkAnswers = .ack :: [] ∧
    (0xF80#64).toNat % 256 = (0x80#8).toNat := by decide
/-- At REM = 127 the command completes, at 128 it goes on. -/
theorem witness_VarintEnc :
    let s := running 0x02#8 127#64 0#64 0#4 [] [.ack]
    let t := running 0x02#8 128#64 0#64 0#4 [] [.ack]
    s.fsm = .run ∧ s.snkAnswers = .ack :: [] ∧ s.rem.toNat % 2 ^ 32 < 128 ∧
    t.fsm = .run ∧ t.snkAnswers = .ack :: [] ∧ 128 ≤ t.rem.toNat % 2 ^ 32 ∧
    (running 0x02#8 128#64 0#64 0#4 [] [.fail cause]).snkAnswers = .fail cause :: [] := by decide
theorem witness_VarlongEnc :
    let s := running 0x03#8 127#64 0#64 0#4 [] [.ack]
    let t := running 0x03#8 128#64 0#64 0#4 [] [.ack]
    s.fsm = .run ∧ s.snkAnswers = .ack :: [] ∧ s.rem.toNat < 128 ∧
    t.fsm = .run ∧ t.snkAnswers = .ack :: [] ∧ 128 ≤ t.rem.toNat ∧
    (running 0x03#8 128#64 0#64 0#4 [] [.fail cause]).snkAnswers = .fail cause :: [] := by decide
/-- At index 4 with byte 127 it completes, with 128 it is TOO_BIG; at index 3 with 128 it goes on. -/
theorem witness_VarintDec :
    let s := running 0x0A#8 0#64 0x0FFFFFFF#64 4#4 [.byte 127#8] []
    let t := running 0x0A#8 0#64 0x1FFFFF#64 3#4 [.byte 128#8] []
    s.fsm = .run ∧ s.srcAnswers = .byte 127#8 :: [] ∧ s.status.count.toNat = 4 ∧
    s.acc.toNat < 2 ^ (7 * s.status.count.toNat) ∧ (127#8).toNat < 128 ∧
    t.fsm = .run ∧ t.srcAnswers = .byte 128#8 :: [] ∧ t.status.count.toNat < 4 ∧
    t.acc.toNat < 2 ^ (7 * t.status.count.toNat) ∧ 128 ≤ (128#8).toNat ∧
    (running 0x0A#8 0#64 0#64 4#4 [.fail cause] []).srcAnswers = .fail cause :: [] := by decide
theorem witness_VarlongDec :
    let s := running 0x0B#8 0#64 0x7FFFFFFFFFFFFFFF#64 9#4 [.byte 127#8] []
    let t := running 0x0B#8 0#64 0xFFFFFFFFFFFFFF#64 8#4 [.byte 128#8] []
    s.fsm = .run ∧ s.srcAnswers = .byte 127#8 :: [] ∧ s.status.count.toNat = 9 ∧
    s.acc.toNat < 2 ^ (7 * s.status.count.toNat) ∧ (127#8).toNat < 128 ∧
    t.fsm = .run ∧ t.srcAnswers = .byte 128#8 :: [] ∧ t.status.count.toNat < 9 ∧
    t.acc.toNat < 2 ^ (7 * t.status.count.toNat) ∧ 128 ≤ (128#8).toNat ∧
    (running 0x0B#8 0#64 0#64 9#4 [.fail cause] []).srcAnswers = .fail cause :: [] := by decide
theorem witness_ModelStops :
    let s := running 0x04#8 0#64 0#64 0#4 [] []
    let t := running 0x0A#8 0#64 0#64 5#4 [.byte 0#8] []
    let u := running 0x0B#8 0#64 0#64 10#4 [.byte 0#8] []
    (NotReset 1 s ∧ s.fsm = .run ∧ legal s.op = false) ∧
    (t.fsm = .run ∧ t.srcAnswers = .byte 0#8 :: [] ∧ 5 ≤ t.status.count.toNat) ∧
    (u.fsm = .run ∧ u.srcAnswers = .byte 0#8 :: [] ∧ 10 ≤ u.status.count.toNat) := by decide
theorem witness_ModelStopsNowhereElse :
    step (running 0x04#8 0#64 0#64 0#4 [] []) = .fault .opNotLegalInRun ∧
    step (running 0x0A#8 0#64 0#64 5#4 [.byte 0#8] []) = .fault .decStepIndexOutOfRange := ⟨rfl, rfl⟩
theorem witness_IgnoredBits :
    (2#64).toNat % 2 = (0#64).toNat % 2 ∧ (0x1FF#64).toNat % 2 ^ 8 = (0xFF#64).toNat % 2 ^ 8 ∧
    (0x100000005#64).toNat % 2 ^ 32 = (5#64).toNat % 2 ^ 32 := by decide
theorem witness_EncStepCorners :
    (0x7F#32).toNat ≤ 0x7F ∧ 0x80 ≤ (0x80#32).toNat ∧ (0x80#32).toNat % 128 = 0 ∧
    (0x7F#64).toNat ≤ 0x7F ∧ 0x80 ≤ (0x80#64).toNat ∧ (0x80#64).toNat % 128 = 0 := by decide
theorem witness_DecStepFits : 7 * 3 + 7 ≤ 32 ∧ (0x1FFFFF#32).toNat < 2 ^ (7 * 3) := by decide
theorem witness_DecStepLast : (0x0FFFFFFF#32).toNat < 2 ^ 28 ∧ (0x7FFFFFFFFFFFFFFF#64).toNat < 2 ^ 63 := by decide
theorem witness_CanonicalLengths : 1 < encLength 5 (128#32).toNat ∧ 1 < encLength 10 (128#64).toNat := by decide

/-- -1 offered to each encoder, with a sink that acknowledges every byte it needs. -/
def sEnc32 : State := offering [⟨0x02#8, 0xFFFFFFFFFFFFFFFF#64⟩] [] (List.replicate 5 .ack)
def sEnc64 : State := offering [⟨0x03#8, 0xFFFFFFFFFFFFFFFF#64⟩] [] (List.replicate 10 .ack)
theorem witness_EncodeWrites :
    (sEnc32.fsm = .idle ∧ sEnc32.snkAnswers = List.replicate 5 .ack ++ [] ∧ NotReset 6 sEnc32 ∧
      5 = encLength 5 ((0xFFFFFFFFFFFFFFFF#64).toNat % 2 ^ 32) ∧ sEnc32.offers = ⟨0x02#8, 0xFFFFFFFFFFFFFFFF#64⟩ :: []) ∧
    (sEnc64.fsm = .idle ∧ sEnc64.snkAnswers = List.replicate 10 .ack ++ [] ∧ NotReset 11 sEnc64 ∧
      10 = encLength 10 (0xFFFFFFFFFFFFFFFF#64).toNat ∧ sEnc64.offers = ⟨0x03#8, 0xFFFFFFFFFFFFFFFF#64⟩ :: []) := by decide
theorem witness_EncodeFails :
    let s := offering [⟨0x02#8, 300#64⟩] [] [.ack, .fail cause]
    let t := offering [⟨0x03#8, 300#64⟩] [] [.fail cause]
    (s.fsm = .idle ∧ s.snkAnswers = List.replicate 1 .ack ++ .fail cause :: [] ∧ NotReset 3 s ∧
      1 < encLength 5 ((300#64).toNat % 2 ^ 32) ∧ s.offers = ⟨0x02#8, 300#64⟩ :: []) ∧
    (t.fsm = .idle ∧ t.snkAnswers = List.replicate 0 .ack ++ .fail cause :: [] ∧ NotReset 2 t ∧
      0 < encLength 10 (300#64).toNat ∧ t.offers = ⟨0x03#8, 300#64⟩ :: []) := by decide
/-- Excess bits at both maxima: FF FF FF FF 7F, and nine FF then 7F. -/
theorem terminated_32 : Terminated 5 (List.replicate 4 0xFF#8 ++ [0x7F#8]) := ⟨_, _, rfl, by decide, by decide, by decide⟩
theorem terminated_64 : Terminated 10 (List.replicate 9 0xFF#8 ++ [0x7F#8]) := ⟨_, _, rfl, by decide, by decide, by decide⟩
theorem witness_DecodeReads :
    let s := offering [⟨0x0A#8, 0#64⟩] ((List.replicate 4 0xFF#8 ++ [0x7F#8]).map .byte ++ [.byte 5#8]) []
    let t := offering [⟨0x0B#8, 0#64⟩] ((List.replicate 9 0xFF#8 ++ [0x7F#8]).map .byte ++ []) []
    (Terminated 5 (List.replicate 4 0xFF#8 ++ [0x7F#8]) ∧ s.fsm = .idle ∧ NotReset 6 s ∧
      s.offers = ⟨0x0A#8, 0#64⟩ :: [] ∧
      s.srcAnswers = (List.replicate 4 0xFF#8 ++ [0x7F#8]).map .byte ++ [.byte 5#8]) ∧
    (Terminated 10 (List.replicate 9 0xFF#8 ++ [0x7F#8]) ∧ t.fsm = .idle ∧ NotReset 11 t ∧
      t.offers = ⟨0x0B#8, 0#64⟩ :: [] ∧ t.srcAnswers = (List.replicate 9 0xFF#8 ++ [0x7F#8]).map .byte ++ []) :=
  ⟨⟨terminated_32, by decide⟩, terminated_64, by decide⟩
theorem witness_TooBig :
    let s := offering [⟨0x0A#8, 0#64⟩] ((List.replicate 5 0x80#8).map .byte ++ [.fail cause]) []
    let t := offering [⟨0x0B#8, 0#64⟩] ((List.replicate 10 0x80#8).map .byte ++ [.fail cause]) []
    (s.fsm = .idle ∧ AllContinued (List.replicate 5 0x80#8) ∧ NotReset 6 s ∧ s.offers = ⟨0x0A#8, 0#64⟩ :: [] ∧
      s.srcAnswers = (List.replicate 5 0x80#8).map .byte ++ [.fail cause] ∧ (List.replicate 5 0x80#8).length = 5) ∧
    (t.fsm = .idle ∧ AllContinued (List.replicate 10 0x80#8) ∧ NotReset 11 t ∧ t.offers = ⟨0x0B#8, 0#64⟩ :: [] ∧
      t.srcAnswers = (List.replicate 10 0x80#8).map .byte ++ [.fail cause] ∧ (List.replicate 10 0x80#8).length = 10) := by
  decide
/-- Cut short at the last index, 4 and 9, and at the first. -/
theorem witness_CutShort :
    let s := offering [⟨0x0A#8, 0#64⟩] ((List.replicate 4 0xFF#8).map .byte ++ .fail cause :: []) []
    let t := offering [⟨0x0B#8, 0#64⟩] ((List.replicate 9 0xFF#8).map .byte ++ .fail cause :: []) []
    let u := offering [⟨0x0A#8, 0#64⟩] (([] : List Byte).map .byte ++ .fail cause :: []) []
    (s.fsm = .idle ∧ AllContinued (List.replicate 4 0xFF#8) ∧ NotReset 6 s ∧ s.offers = ⟨0x0A#8, 0#64⟩ :: [] ∧
      s.srcAnswers = (List.replicate 4 0xFF#8).map .byte ++ .fail cause :: []) ∧
    (t.fsm = .idle ∧ AllContinued (List.replicate 9 0xFF#8) ∧ NotReset 11 t ∧ t.offers = ⟨0x0B#8, 0#64⟩ :: [] ∧
      t.srcAnswers = (List.replicate 9 0xFF#8).map .byte ++ .fail cause :: []) ∧
    (u.fsm = .idle ∧ AllContinued [] ∧ NotReset 2 u ∧ u.offers = ⟨0x0A#8, 0#64⟩ :: [] ∧
      u.srcAnswers = ([] : List Byte).map .byte ++ .fail cause :: []) := by decide
theorem witness_RoundTrip :
    (sEnc32.fsm = .idle ∧ sEnc32.resetInput = [] ∧ sEnc32.snkAnswers = List.replicate 5 .ack ++ [] ∧
      5 = encLength 5 ((0xFFFFFFFFFFFFFFFF#64).toNat % 2 ^ 32) ∧ sEnc32.offers = [⟨0x02#8, 0xFFFFFFFFFFFFFFFF#64⟩]) ∧
    (sEnc64.fsm = .idle ∧ sEnc64.resetInput = [] ∧ sEnc64.snkAnswers = List.replicate 10 .ack ++ [] ∧
      10 = encLength 10 (0xFFFFFFFFFFFFFFFF#64).toNat ∧ sEnc64.offers = [⟨0x03#8, 0xFFFFFFFFFFFFFFFF#64⟩]) := by decide

/-- A VARINT.DEC in progress, its source with ten answers to give and the sink silent. -/
def sAnswered : State := running 0x0A#8 0#64 0#64 0#4 (List.replicate 10 (.byte 0x80#8)) []
/-- A VARLONG.ENC in progress, its sink with ten answers to give and the source silent. -/
def sAnsweredEnc : State := running 0x03#8 5#64 0#64 0#4 [] (List.replicate 10 .ack)
theorem inv_sAnswered : Inv sAnswered := by constructor <;> decide
theorem inv_sAnsweredEnc : Inv sAnsweredEnc := by constructor <;> decide
theorem witness_CommandEnds_dec :
    (Inv sAnswered ∧ sAnswered.fsm = .run ∧ sAnswered.op.getLsbD 3 = true ∧ 10 ≤ sAnswered.srcAnswers.length ∧
      NotReset 10 sAnswered) ∧
    (Inv sSilentDec ∧ sSilentDec.fsm = .run ∧ sSilentDec.op.getLsbD 3 = true ∧ sSilentDec.srcAnswers = [] ∧
      sSilentDec.resetInput = []) := ⟨⟨inv_sAnswered, by decide⟩, inv_sSilentDec, by decide⟩
theorem witness_CommandEnds_enc :
    (Inv sAnsweredEnc ∧ sAnsweredEnc.fsm = .run ∧ sAnsweredEnc.op.getLsbD 3 = false ∧
      10 ≤ sAnsweredEnc.snkAnswers.length ∧ NotReset 10 sAnsweredEnc) ∧
    (Inv sSilent ∧ sSilent.fsm = .run ∧ sSilent.op.getLsbD 3 = false ∧ sSilent.snkAnswers = [] ∧
      sSilent.resetInput = []) := ⟨⟨inv_sAnsweredEnc, by decide⟩, inv_sSilent, by decide⟩

/-- The state after the last step of a VARINT.DEC of -1. -/
def sDone : State :=
  { sDec with
    fsm := .idle, status := { busy := false, done := true, valid := true, err := .none, count := 5#4 }
    result := 0xFFFFFFFFFFFFFFFF#64, acc := 0xFFFFFFFF#64, srcAnswers := [.fail cause] }
theorem step_sDec : step sDec = .next sDone := eq_next_of_after (by decide)
theorem inv_sDone : Inv sDone := by constructor <;> decide
theorem witness_StepKeepsInv : Inv sDec ∧ step sDec = .next sDone := ⟨inv_sDec, step_sDec⟩
theorem witness_BlockNeverStops : Inv sDec := inv_sDec
theorem witness_Reachable : JustReset { State.reset with result := 300#64, op := 0xFF#8, rem := 5#64 } := by decide
theorem witness_WriteTable : Inv sDec ∧ step sDec = .next sDone := ⟨inv_sDec, step_sDec⟩
theorem witness_ResultWritten :
    step sDec = .next sDone ∧ (sDone.result ≠ sDec.result ∨ (sDone.status.valid = true ∧ sDec.status.valid = false)) :=
  ⟨step_sDec, by decide⟩

/-- The state after VARINT.DEC is accepted from `sAccept`, with every hidden register different before. -/
def sAccept : State := { offering [⟨0x0A#8, 0#64⟩] [] [] with op := 0x02#8, acc := 7#64 }
theorem witness_HiddenRegisters_op_acc :
    step sAccept = .next (acceptDecode 0x0A#8 { sAccept with offers := [] }) ∧
    (acceptDecode 0x0A#8 { sAccept with offers := [] }).op ≠ sAccept.op ∧
    (acceptDecode 0x0A#8 { sAccept with offers := [] }).acc ≠ sAccept.acc :=
  ⟨eq_next_of_after (by decide), by decide⟩
theorem witness_HiddenRegisters_rem :
    let s := running 0x02#8 0x12C#64 0#64 0#4 [] [.ack]
    let t := { s with
      rem := 2#64, snkAnswers := [], acked := [0xAC#8]
      status := { busy := true, done := false, valid := false, err := .none, count := 1#4 } }
    step s = .next t ∧ t.rem ≠ s.rem := ⟨eq_next_of_after (by decide), by decide⟩
theorem witness_EncodeFrame :
    let s := running 0x02#8 0x12C#64 0#64 0#4 [] [.ack]
    (encStep (lowBits 32 s.rem)).byte = 0xAC#8 ∧ (after (exec (.varintEnc 0#64) s)).isSome = true := by decide
theorem witness_DecodeFrame : exec (.varintDec 0#64) sDec = .next sDone := eq_next_of_after (by decide)
theorem witness_CountIs : Inv sDec ∧ NotReset 1 sDec ∧ sDec.fsm = .run ∧ step sDec = .next sDone :=
  ⟨inv_sDec, by decide, by decide, step_sDec⟩
theorem witness_OutcomeStays :
    Inv sDone ∧ sDone.status.done = true ∧ NotReset 1 sDone ∧ step sDone = .next sDone ∧ sDone.offers = sDone.offers :=
  ⟨inv_sDone, by decide, by decide, eq_next_of_after (by decide), rfl⟩
theorem witness_FailureValues :
    let s := running 0x0A#8 0#64 0#64 4#4 [.fail cause] []
    (after (step s)).isSome = true ∧ (after (step s)).map State.iocause = some cause ∧
    (after (step (s.relabel (· + 1#_)))).map State.iocause = some (cause + 1#_) := ⟨rfl, rfl, rfl⟩
theorem witness_AssemblerRange : (-128 : Int) = (if true then -((128 : Nat) : Int) else ((128 : Nat) : Int)) := by decide

end Sys2Proof.Tests
end

section
/-! PROOFS. The decoder as a round trip, and everything one step can do, said once as a relation (10_state.md R42 to
R44): the statements about the state are derived from it. -/

namespace Sys2Proof.Machine

open Sys2Proof.Config (IoCause)

/-! ### The decoder -/

theorem decode_encode (i : Instr) : decode (encode i) = .ok i := by
  cases i <;> simp [decode, encode, Instr.opcode, Instr.operand]

theorem legal_opcode (i : Instr) : legal i.opcode = true := by
  cases i <;> simp [legal, rsvClear, typeAssigned, Instr.opcode]

/-- R76: the eight legal opcodes. -/
theorem opcode_of_legal {op : BitVec 8} (h : legal op = true) :
    op = 0x00#8 ∨ op = 0x01#8 ∨ op = 0x02#8 ∨ op = 0x03#8 ∨ op = 0x08#8 ∨ op = 0x09#8 ∨ op = 0x0A#8 ∨ op = 0x0B#8 := by
  revert op; decide

theorem exists_encode_of_legal {c : Command} (h : legal c.op = true) : ∃ i, encode i = c := by
  obtain ⟨op, x⟩ := c
  obtain rfl | rfl | rfl | rfl | rfl | rfl | rfl | rfl := opcode_of_legal h
  · exact ⟨.boolEnc x, rfl⟩
  · exact ⟨.byteEnc x, rfl⟩
  · exact ⟨.varintEnc x, rfl⟩
  · exact ⟨.varlongEnc x, rfl⟩
  · exact ⟨.boolDec x, rfl⟩
  · exact ⟨.byteDec x, rfl⟩
  · exact ⟨.varintDec x, rfl⟩
  · exact ⟨.varlongDec x, rfl⟩

/-- R75: legality in the terms the decoder checks. -/
theorem legal_iff_fields (op : BitVec 8) : legal op = true ↔ op.extractLsb' 4 4 = 0#4 ∧ op.getLsbD 2 = false := by
  revert op; decide

/-- R75, R76: the decoder rejects the commands that are not legal. -/
theorem decode_error_of_illegal {c : Command} (h : legal c.op = false) : ∃ e, decode c = .error e := by
  by_cases hr : c.op.extractLsb' 4 4 = 0#4
  · have ht : c.op.getLsbD 2 = true := by
      cases ht : c.op.getLsbD 2
      · simp [(legal_iff_fields c.op).2 ⟨hr, ht⟩] at h
      · rfl
    exact ⟨.reservedType, by simp [decode, hr, ht]⟩
  · exact ⟨.rsvNonZero, by simp [decode, hr]⟩

theorem decode_ok_iff {c : Command} {i : Instr} : decode c = .ok i ↔ encode i = c := by
  refine ⟨fun h => ?_, fun h => h ▸ decode_encode i⟩
  cases hl : legal c.op
  · obtain ⟨e, he⟩ := decode_error_of_illegal hl
    rw [he] at h
    cases h
  · obtain ⟨j, rfl⟩ := exists_encode_of_legal hl
    rw [decode_encode] at h
    cases h
    rfl

theorem legal_eq_false_of_decode_error {c : Command} {e : Illegal} (h : decode c = .error e) : legal c.op = false := by
  cases hl : legal c.op
  · rfl
  · obtain ⟨i, rfl⟩ := exists_encode_of_legal hl
    rw [decode_encode] at h
    cases h

/-- The instruction of the same opcode with the OPERAND `x` (R70). -/
def withOperand (x : Word64) : Instr → Instr
  | .boolEnc _ => .boolEnc x
  | .byteEnc _ => .byteEnc x
  | .varintEnc _ => .varintEnc x
  | .varlongEnc _ => .varlongEnc x
  | .boolDec _ => .boolDec x
  | .byteDec _ => .byteDec x
  | .varintDec _ => .varintDec x
  | .varlongDec _ => .varlongDec x

theorem encode_withOperand (x : Word64) (i : Instr) : encode (withOperand x i) = ⟨i.opcode, x⟩ := by
  cases i <;> rfl

/-- A transfer body does not use OPERAND (R44, R78, R79). -/
theorem transferBody_withOperand (x : Word64) (i : Instr) : transferBody (withOperand x i) = transferBody i := by
  cases i <;> rfl

/-! ### Acceptance, and the two intermediate states of a transfer -/

section
variable (i : Instr) (s : State)

@[simp] theorem acceptBody_status : (acceptBody i s).status = s.status.clearOutcome.setBusy := by cases i <;> rfl
@[simp] theorem acceptBody_result : (acceptBody i s).result = s.result := by cases i <;> rfl
@[simp] theorem acceptBody_iocause : (acceptBody i s).iocause = s.iocause := by cases i <;> rfl
@[simp] theorem acceptBody_fsm : (acceptBody i s).fsm = .run := by cases i <;> rfl
@[simp] theorem acceptBody_op : (acceptBody i s).op = i.opcode := by cases i <;> rfl
@[simp] theorem acceptBody_offers : (acceptBody i s).offers = s.offers := by cases i <;> rfl

/-- Acceptance leaves REM unless the command is an encode, DIR = 0 (R36, R43). -/
theorem acceptBody_rem_or_encode : (acceptBody i s).rem = s.rem ∨ i.opcode.getLsbD 3 = false := by
  cases i <;> simp [acceptBody, Instr.opcode]

/-- Acceptance leaves ACC, unless the command is a decode, DIR = 1, which clears it (R37, R43). -/
theorem acceptBody_acc_or_decode :
    (acceptBody i s).acc = s.acc ∨ (i.opcode.getLsbD 3 = true ∧ (acceptBody i s).acc = 0#64) := by
  cases i <;> simp [acceptBody, Instr.opcode]

end

section
variable (w : Nat) (rest : List SnkAnswer) (s : State)

@[simp] theorem encoded_status : (encoded w rest s).status = s.status.countUp := rfl
@[simp] theorem encoded_result : (encoded w rest s).result = s.result := rfl
@[simp] theorem encoded_iocause : (encoded w rest s).iocause = s.iocause := rfl
@[simp] theorem encoded_fsm : (encoded w rest s).fsm = s.fsm := rfl
@[simp] theorem encoded_op : (encoded w rest s).op = s.op := rfl
@[simp] theorem encoded_rem : (encoded w rest s).rem = zext64 (encStep (lowBits w s.rem)).rem := rfl
@[simp] theorem encoded_acc : (encoded w rest s).acc = s.acc := rfl
@[simp] theorem encoded_offers : (encoded w rest s).offers = s.offers := rfl
@[simp] theorem encoded_srcAnswers : (encoded w rest s).srcAnswers = s.srcAnswers := rfl
@[simp] theorem encoded_snkAnswers : (encoded w rest s).snkAnswers = rest := rfl
@[simp] theorem encoded_resetInput : (encoded w rest s).resetInput = s.resetInput := rfl
@[simp] theorem encoded_acked :
    (encoded w rest s).acked = s.acked ++ [(encStep (lowBits w s.rem)).byte] := rfl

end

section
variable (w : Nat) (b : Byte) (s : State)

@[simp] theorem gathered_status : (gathered w b s).status = s.status.countUp := rfl
@[simp] theorem gathered_result : (gathered w b s).result = s.result := rfl
@[simp] theorem gathered_iocause : (gathered w b s).iocause = s.iocause := rfl
@[simp] theorem gathered_fsm : (gathered w b s).fsm = s.fsm := rfl
@[simp] theorem gathered_op : (gathered w b s).op = s.op := rfl
@[simp] theorem gathered_rem : (gathered w b s).rem = s.rem := rfl
@[simp] theorem gathered_acc :
    (gathered w b s).acc = zext64 (decStep (lowBits w s.acc) s.status.count.toNat b) := rfl
@[simp] theorem gathered_offers : (gathered w b s).offers = s.offers := rfl
@[simp] theorem gathered_srcAnswers : (gathered w b s).srcAnswers = s.srcAnswers := rfl
@[simp] theorem gathered_snkAnswers : (gathered w b s).snkAnswers = s.snkAnswers := rfl
@[simp] theorem gathered_resetInput : (gathered w b s).resetInput = s.resetInput := rfl
@[simp] theorem gathered_acked : (gathered w b s).acked = s.acked := rfl

end

/-! ### What a step can do -/

/-- OP names VARINT.ENC or VARLONG.ENC, of width `w` and at most `max` bytes (R8, R121, R122). -/
def IsVarEnc (op : BitVec 8) (w max : Nat) : Prop :=
  (op = 0x02#8 ∧ w = 32 ∧ max = 5) ∨ (op = 0x03#8 ∧ w = 64 ∧ max = 10)

/-- OP names VARINT.DEC or VARLONG.DEC, of width `w` and at most `max` bytes (R8, R141, R142). -/
def IsVarDec (op : BitVec 8) (w max : Nat) : Prop :=
  (op = 0x0A#8 ∧ w = 32 ∧ max = 5) ∨ (op = 0x0B#8 ∧ w = 64 ∧ max = 10)

/-- OP names BOOL.ENC or BYTE.ENC, which writes `byteOf REM` (R160, R162). -/
def IsFixedEnc (op : BitVec 8) (byteOf : Word64 → Byte) : Prop :=
  (op = 0x00#8 ∧ byteOf = boolByte) ∨ (op = 0x01#8 ∧ byteOf = lowBits 8)

/-- OP names BOOL.DEC or BYTE.DEC, which writes `value b` for a byte `b` (R161, R163). -/
def IsFixedDec (op : BitVec 8) (value : Byte → Word64) : Prop :=
  (op = 0x08#8 ∧ value = boolValue) ∨ (op = 0x09#8 ∧ value = fun b => sext64 b)

/-- The port DIR selects has not answered (R52, R71). -/
def PortSilent (s : State) : Prop :=
  (s.op.getLsbD 3 = false ∧ s.snkAnswers = []) ∨ (s.op.getLsbD 3 = true ∧ s.srcAnswers = [])

/-- Every next state of a transfer step, by what the port answered and what the command made of it (R44). -/
inductive Transfer (s : State) : State → Prop
  /-- The port has not answered (R52). -/
  | hold (h : PortSilent s) : Transfer s s
  /-- The sink answered Fail (R182). -/
  | sinkFailed {c : IoCause} {rest : List SnkAnswer} (hdir : s.op.getLsbD 3 = false)
      (hs : s.snkAnswers = .fail c :: rest) : Transfer s (raise (.io c) { s with snkAnswers := rest })
  /-- The source answered Fail (R182). -/
  | sourceFailed {c : IoCause} {rest : List SrcAnswer} (hdir : s.op.getLsbD 3 = true)
      (hs : s.srcAnswers = .fail c :: rest) : Transfer s (raise (.io c) { s with srcAnswers := rest })
  /-- The one byte of a Bool or Byte encode is written (R160, R162). -/
  | wroteOnly {byteOf : Word64 → Byte} {rest : List SnkAnswer} (hop : IsFixedEnc s.op byteOf)
      (hs : s.snkAnswers = .ack :: rest) :
      Transfer s (complete (countOne { s with snkAnswers := rest, acked := s.acked ++ [byteOf s.rem] }))
  /-- The last byte of a VarInt or VarLong encode is written (R120). -/
  | wroteLast {w max : Nat} {rest : List SnkAnswer} (hop : IsVarEnc s.op w max) (hs : s.snkAnswers = .ack :: rest)
      (hl : (encStep (lowBits w s.rem)).last = true) : Transfer s (complete (encoded w rest s))
  /-- A byte of a VarInt or VarLong encode is written and more remain (R120). -/
  | wroteMore {w max : Nat} {rest : List SnkAnswer} (hop : IsVarEnc s.op w max) (hs : s.snkAnswers = .ack :: rest)
      (hl : (encStep (lowBits w s.rem)).last = false) : Transfer s (encoded w rest s)
  /-- The one byte of a Bool or Byte decode is read (R161, R163). -/
  | readOnly {b : Byte} {value : Byte → Word64} {rest : List SrcAnswer} (hop : IsFixedDec s.op value)
      (hs : s.srcAnswers = .byte b :: rest) :
      Transfer s (completeDecode (value b) (countOne { s with srcAnswers := rest }))
  /-- The last byte of a VarInt or VarLong decode is read (R140, R149). -/
  | readLast {w max : Nat} {b : Byte} {rest : List SrcAnswer} (hop : IsVarDec s.op w max)
      (hs : s.srcAnswers = .byte b :: rest) (hk : s.status.count.toNat < max) (hb : continuation b = false) :
      Transfer s (completeDecode (sext64 (decStep (lowBits w s.acc) s.status.count.toNat b))
        (gathered w b { s with srcAnswers := rest }))
  /-- Byte MAX of a VarInt or VarLong decode is read and has the continuation bit (R143). -/
  | readTooBig {w max : Nat} {b : Byte} {rest : List SrcAnswer} (hop : IsVarDec s.op w max)
      (hs : s.srcAnswers = .byte b :: rest) (hk : s.status.count.toNat < max) (hb : continuation b = true)
      (hm : (s.status.count + 1#4).toNat = max) :
      Transfer s (raise .tooBig (gathered w b { s with srcAnswers := rest }))
  /-- A byte of a VarInt or VarLong decode is read and more are due (R140). -/
  | readMore {w max : Nat} {b : Byte} {rest : List SrcAnswer} (hop : IsVarDec s.op w max)
      (hs : s.srcAnswers = .byte b :: rest) (hk : s.status.count.toNat < max) (hb : continuation b = true)
      (hm : (s.status.count + 1#4).toNat ≠ max) :
      Transfer s (gathered w b { s with srcAnswers := rest })

/-- Every next state of a step with reset not asserted (R42 to R44). -/
inductive BlockEvent (s : State) : State → Prop
  /-- Nothing is offered (R63). -/
  | unoffered (hf : s.fsm = .idle) (ho : s.offers = []) : BlockEvent s s
  /-- A legal command is accepted (R43). -/
  | accept {i : Instr} {later : List Command} (hf : s.fsm = .idle) (ho : s.offers = encode i :: later) :
      BlockEvent s (acceptBody i { s with offers := later })
  /-- An illegal command is accepted (R164). -/
  | acceptIllegal {c : Command} {later : List Command} (hf : s.fsm = .idle) (ho : s.offers = c :: later)
      (hc : legal c.op = false) : BlockEvent s (acceptIllegal { s with offers := later })
  /-- The command in progress takes a transfer step (R44). -/
  | transfer {t : State} (hf : s.fsm = .run) (h : Transfer s t) : BlockEvent s t

section
variable {op : BitVec 8} {w max : Nat} {byteOf : Word64 → Byte} {value : Byte → Word64}

theorem IsFixedEnc.dir (h : IsFixedEnc op byteOf) : op.getLsbD 3 = false := by
  obtain ⟨rfl, -⟩ | ⟨rfl, -⟩ := h <;> rfl
theorem IsVarEnc.dir (h : IsVarEnc op w max) : op.getLsbD 3 = false := by obtain ⟨rfl, -⟩ | ⟨rfl, -⟩ := h <;> rfl
theorem IsFixedDec.dir (h : IsFixedDec op value) : op.getLsbD 3 = true := by
  obtain ⟨rfl, -⟩ | ⟨rfl, -⟩ := h <;> rfl
theorem IsVarDec.dir (h : IsVarDec op w max) : op.getLsbD 3 = true := by obtain ⟨rfl, -⟩ | ⟨rfl, -⟩ := h <;> rfl
theorem IsVarEnc.unique {w' max' : Nat} (h : IsVarEnc op w max) (h' : IsVarEnc op w' max') : w = w' ∧ max = max' := by
  obtain ⟨rfl, rfl, rfl⟩ | ⟨rfl, rfl, rfl⟩ := h <;> simpa [IsVarEnc, eq_comm] using h'
theorem IsVarDec.unique {w' max' : Nat} (h : IsVarDec op w max) (h' : IsVarDec op w' max') : w = w' ∧ max = max' := by
  obtain ⟨rfl, rfl, rfl⟩ | ⟨rfl, rfl, rfl⟩ := h <;> simpa [IsVarDec, eq_comm] using h'
theorem IsVarEnc.op_eq (h : IsVarEnc op w max) : op = 0x02#8 ∨ op = 0x03#8 := h.imp And.left And.left
theorem IsVarDec.op_eq (h : IsVarDec op w max) : op = 0x0A#8 ∨ op = 0x0B#8 := h.imp And.left And.left

end

section
variable {s t : State}

theorem transfer_of_encodeOneByte {byteOf : Word64 → Byte} (hop : IsFixedEnc s.op byteOf)
    (h : encodeOneByte (byteOf s.rem) s = .next t) : Transfer s t := by
  obtain ⟨hs, rfl⟩ | ⟨c, rest, hs, rfl⟩ | ⟨rest, hs, rfl⟩ := encodeOneByte_cases h
  · exact .hold (.inl ⟨hop.dir, hs⟩)
  · exact .sinkFailed hop.dir hs
  · exact .wroteOnly hop hs

theorem transfer_of_encodeVarStep {w max : Nat} (hop : IsVarEnc s.op w max) (h : encodeVarStep w s = .next t) :
    Transfer s t := by
  obtain ⟨hs, rfl⟩ | ⟨c, rest, hs, rfl⟩ | ⟨rest, hs, hl, rfl⟩ | ⟨rest, hs, hl, rfl⟩ := encodeVarStep_cases h
  · exact .hold (.inl ⟨hop.dir, hs⟩)
  · exact .sinkFailed hop.dir hs
  · exact .wroteLast hop hs hl
  · exact .wroteMore hop hs hl

theorem transfer_of_decodeOneByte {value : Byte → Word64} (hop : IsFixedDec s.op value)
    (h : decodeOneByte value s = .next t) : Transfer s t := by
  obtain ⟨hs, rfl⟩ | ⟨c, rest, hs, rfl⟩ | ⟨b, rest, hs, rfl⟩ := decodeOneByte_cases h
  · exact .hold (.inr ⟨hop.dir, hs⟩)
  · exact .sourceFailed hop.dir hs
  · exact .readOnly hop hs

theorem transfer_of_decodeVarStep {w max : Nat} (hop : IsVarDec s.op w max) (h : decodeVarStep w max s = .next t) :
    Transfer s t := by
  obtain ⟨hs, rfl⟩ | ⟨c, rest, hs, rfl⟩ | ⟨b, rest, hs, hk, hb, rfl⟩ | ⟨b, rest, hs, hk, hb, hm, rfl⟩ |
    ⟨b, rest, hs, hk, hb, hm, rfl⟩ := decodeVarStep_cases h
  · exact .hold (.inr ⟨hop.dir, hs⟩)
  · exact .sourceFailed hop.dir hs
  · exact .readLast hop hs hk hb
  · exact .readTooBig hop hs hk hb hm
  · exact .readMore hop hs hk hb hm

/-- A transfer body that goes on, run by the OP that selects it, is a transfer (R44). -/
theorem transfer_of_transferBody {i : Instr} (hop : s.op = i.opcode) (h : transferBody i s = .next t) :
    Transfer s t := by
  cases i with
  | boolEnc => exact transfer_of_encodeOneByte (.inl ⟨hop, rfl⟩) h
  | byteEnc => exact transfer_of_encodeOneByte (.inr ⟨hop, rfl⟩) h
  | varintEnc => exact transfer_of_encodeVarStep (.inl ⟨hop, rfl, rfl⟩) h
  | varlongEnc => exact transfer_of_encodeVarStep (.inr ⟨hop, rfl, rfl⟩) h
  | boolDec => exact transfer_of_decodeOneByte (.inl ⟨hop, rfl⟩) h
  | byteDec => exact transfer_of_decodeOneByte (.inr ⟨hop, rfl⟩) h
  | varintDec => exact transfer_of_decodeVarStep (.inl ⟨hop, rfl, rfl⟩) h
  | varlongDec => exact transfer_of_decodeVarStep (.inr ⟨hop, rfl, rfl⟩) h

/-- A step with reset not asserted that goes on is one of the block's events (R42). -/
theorem blockEvent_of_blockStep (h : blockStep s = .next t) : BlockEvent s t := by
  obtain ⟨hf, ho, hb⟩ | ⟨c, later, i, hf, ho, hd, hb⟩ | ⟨c, later, e, hf, ho, hd, hb⟩ | ⟨i, hf, hd, hb⟩ |
    ⟨e, -, -, hb⟩ := blockStep_cases s <;> rw [hb] at h
  · cases h
    exact .unoffered hf ho
  · cases h
    exact .accept hf (decode_ok_iff.1 hd ▸ ho)
  · cases h
    exact .acceptIllegal hf ho (legal_eq_false_of_decode_error hd)
  · exact .transfer hf (transfer_of_transferBody (congrArg Command.op (decode_ok_iff.1 hd)).symm h)
  · cases h

theorem asserted_or_notReset (s : State) :
    (∃ l rest, s.resetInput = .asserted l :: rest) ∨ NotReset 1 s := by
  cases h : s.resetInput with
  | nil => exact .inr (by simp [NotReset, h])
  | cons r rest =>
    cases r with
    | deasserted => exact .inr (by simp [NotReset, h])
    | asserted l => exact .inl ⟨l, rest, rfl⟩

/-- A step that goes on is a reset, or one of the block's events with the reset sample taken (R42, R210). -/
theorem step_next_cases (h : step s = .next t) :
    (∃ l rest, s.resetInput = .asserted l :: rest ∧ t = resetStep l { s with resetInput := rest }) ∨
    (NotReset 1 s ∧ BlockEvent { s with resetInput := s.resetInput.tail } t) := by
  obtain ⟨l, rest, hr⟩ | hn := asserted_or_notReset s
  · rw [step_of_asserted hr] at h
    cases h
    exact .inl ⟨l, rest, hr, rfl⟩
  · rw [step_of_notReset hn] at h
    exact .inr ⟨hn, blockEvent_of_blockStep h⟩

/-- Without a reset, a step from RUN that goes on is a transfer (R44, R210). -/
theorem transfer_of_step (hn : NotReset 1 s) (hf : s.fsm = .run) (h : step s = .next t) :
    Transfer { s with resetInput := s.resetInput.tail } t := by
  rw [step_of_notReset hn] at h
  cases blockEvent_of_blockStep h with
  | unoffered hi => simp [hf] at hi
  | accept hi => simp [hf] at hi
  | acceptIllegal hi => simp [hf] at hi
  | transfer _ ht => exact ht

end

end Sys2Proof.Machine
end

section
/-! PROOFS. The invariant (10_state.md R39): what it says of a command in progress, how it is established for a running
and for a finished command, and that every step keeps it. -/

namespace Sys2Proof.Machine

/-! ### What the invariant says -/

section
variable {s t : State}

/-- In RUN the outcome fields are clear (R25, R39). -/
theorem Inv.outcome_clear (h : Inv s) (hf : s.fsm = .run) :
    s.status.busy = true ∧ s.status.done = false ∧ s.status.valid = false ∧ s.status.err = .none :=
  ⟨h.busy_iff_run.2 hf, h.busy_outcome (h.busy_iff_run.2 hf)⟩

theorem Inv.busy_of_idle (h : Inv s) (hf : s.fsm = .idle) : s.status.busy = false := by
  cases hb : s.status.busy
  · rfl
  · simp [h.busy_iff_run.1 hb] at hf

/-- A Bool or Byte command in progress has COUNT = 0 (R39). -/
theorem Inv.count_of_fixedEnc {byteOf : Word64 → Byte} (h : Inv s) (hf : s.fsm = .run)
    (hop : IsFixedEnc s.op byteOf) : s.status.count = 0#4 :=
  h.fixed_count hf (hop.elim (fun ho => .inl ho.1) fun ho => .inr (.inl ho.1))

theorem Inv.count_of_fixedDec {value : Byte → Word64} (h : Inv s) (hf : s.fsm = .run) (hop : IsFixedDec s.op value) :
    s.status.count = 0#4 :=
  h.fixed_count hf (hop.elim (fun ho => .inr (.inr (.inl ho.1))) fun ho => .inr (.inr (.inr ho.1)))

/-- A VarInt or VarLong encode in progress has written fewer than MAX bytes, and REM has lost 7 bits for each (R103). -/
theorem Inv.varEnc {w max : Nat} (h : Inv s) (hf : s.fsm = .run) (hop : IsVarEnc s.op w max) :
    s.status.count.toNat < max ∧ s.rem.toNat < 2 ^ (w - 7 * s.status.count.toNat) := by
  obtain ⟨ho, rfl, rfl⟩ | ⟨ho, rfl, rfl⟩ := hop
  · exact ⟨Nat.lt_succ_of_le (h.varint_enc hf ho).1, (h.varint_enc hf ho).2⟩
  · exact ⟨Nat.lt_succ_of_le (h.varlong_enc hf ho).1, (h.varlong_enc hf ho).2⟩

/-- A VarInt or VarLong decode in progress has read fewer than MAX bytes, and ACC has gained 7 bits for each (R106). -/
theorem Inv.varDec {w max : Nat} (h : Inv s) (hf : s.fsm = .run) (hop : IsVarDec s.op w max) :
    s.status.count.toNat < max ∧ s.acc.toNat < 2 ^ (7 * s.status.count.toNat) := by
  obtain ⟨ho, rfl, rfl⟩ | ⟨ho, rfl, rfl⟩ := hop
  · exact ⟨Nat.lt_succ_of_le (h.varint_dec hf ho).1, (h.varint_dec hf ho).2⟩
  · exact ⟨Nat.lt_succ_of_le (h.varlong_dec hf ho).1, (h.varlong_dec hf ho).2⟩

/-- In RUN fewer than 10 bytes have been moved (R39). -/
theorem Inv.count_le_nine (h : Inv s) (hf : s.fsm = .run) : s.status.count.toNat ≤ 9 := by
  obtain ho | ho | ho | ho | ho | ho | ho | ho := opcode_of_legal (h.op_legal hf)
  · simp [h.fixed_count hf (by simp [ho])]
  · simp [h.fixed_count hf (by simp [ho])]
  · have := (h.varint_enc hf ho).1
    omega
  · exact (h.varlong_enc hf ho).1
  · simp [h.fixed_count hf (by simp [ho])]
  · simp [h.fixed_count hf (by simp [ho])]
  · have := (h.varint_dec hf ho).1
    omega
  · exact (h.varlong_dec hf ho).1

/-- In RUN the next transaction does not make COUNT wrap (R22, R39). -/
theorem Inv.count_succ (h : Inv s) (hf : s.fsm = .run) : (s.status.count + 1#4).toNat = s.status.count.toNat + 1 := by
  have := h.count_le_nine hf
  rw [BitVec.toNat_add, BitVec.toNat_ofNat]
  omega

/-! ### How the invariant is established -/

/-- How far the command in progress has come, by the command OP names: the part of `Inv` that is about RUN (R39, R103,
R106). -/
inductive Progress (s : State) : Prop
  /-- A Bool or Byte command has moved no byte (R160 to R163). -/
  | fixed (hop : s.op = 0x00#8 ∨ s.op = 0x01#8 ∨ s.op = 0x08#8 ∨ s.op = 0x09#8) (hk : s.status.count = 0#4)
  /-- REM has lost 7 bits per byte written (R103). -/
  | varEnc {w max : Nat} (hop : IsVarEnc s.op w max) (hk : s.status.count.toNat < max)
      (hrem : s.rem.toNat < 2 ^ (w - 7 * s.status.count.toNat))
  /-- ACC has gained 7 bits per byte read (R106). -/
  | varDec {w max : Nat} (hop : IsVarDec s.op w max) (hk : s.status.count.toNat < max)
      (hacc : s.acc.toNat < 2 ^ (7 * s.status.count.toNat))

/-- What a finished command leaves: the part of `Inv` that is about DONE = 1 (R32, R39, R181 to R183). -/
inductive Finished (s : State) : Prop
  /-- An encode succeeded. -/
  | encoded (hv : s.status.valid = false) (he : s.status.err = .none) (hk : s.status.count.toNat ≤ 10)
  /-- A decode succeeded, with a value its type can hold. -/
  | decoded (he : s.status.err = .none) (hk : s.status.count.toNat ≤ 10)
      (hr : (s.op = 0x08#8 ∧ s.result.toNat ≤ 1) ∨ (s.op = 0x09#8 ∧ -128 ≤ s.result.toInt ∧ s.result.toInt < 128) ∨
        (s.op = 0x0A#8 ∧ -2147483648 ≤ s.result.toInt ∧ s.result.toInt < 2147483648) ∨ s.op = 0x0B#8)
  /-- MAX bytes were read without an end (R143). -/
  | tooBig (hv : s.status.valid = false) (he : s.status.err = .tooBig)
      (hk : s.status.count = 5#4 ∨ s.status.count = 10#4)
  /-- A transaction failed (R182). -/
  | io (hv : s.status.valid = false) (he : s.status.err = .io) (hk : s.status.count.toNat ≤ 9)
  /-- The command was illegal (R164). -/
  | illegal (hv : s.status.valid = false) (he : s.status.err = .illegalCmd) (hk : s.status.count = 0#4)

theorem Progress.legal (h : Progress s) : legal s.op = true := by
  cases h with
  | fixed hop => obtain ho | ho | ho | ho := hop <;> rw [ho] <;> decide
  | varEnc hop => obtain ho | ho := hop.op_eq <;> rw [ho] <;> decide
  | varDec hop => obtain ho | ho := hop.op_eq <;> rw [ho] <;> decide

theorem Progress.count_le (h : Progress s) : s.status.count.toNat ≤ 10 := by
  cases h with
  | fixed _ hk => simp [hk]
  | varEnc hop hk => obtain ⟨-, -, rfl⟩ | ⟨-, -, rfl⟩ := hop <;> omega
  | varDec hop hk => obtain ⟨-, -, rfl⟩ | ⟨-, -, rfl⟩ := hop <;> omega

theorem Progress.count_of_fixed (h : Progress s)
    (ho : s.op = 0x00#8 ∨ s.op = 0x01#8 ∨ s.op = 0x08#8 ∨ s.op = 0x09#8) : s.status.count = 0#4 := by
  cases h with
  | fixed _ hk => exact hk
  | varEnc hop => obtain hv | hv := hop.op_eq <;> simp [hv] at ho
  | varDec hop => obtain hv | hv := hop.op_eq <;> simp [hv] at ho

theorem Progress.of_varEnc {w max : Nat} (h : Progress s) (ho : IsVarEnc s.op w max) :
    s.status.count.toNat < max ∧ s.rem.toNat < 2 ^ (w - 7 * s.status.count.toNat) := by
  cases h with
  | fixed hop => obtain hv | hv := ho.op_eq <;> simp [hv] at hop
  | varEnc hop hk hrem =>
    obtain ⟨rfl, rfl⟩ := hop.unique ho
    exact ⟨hk, hrem⟩
  | varDec hop => exact absurd (ho.dir.symm.trans hop.dir) (by decide)

theorem Progress.of_varDec {w max : Nat} (h : Progress s) (ho : IsVarDec s.op w max) :
    s.status.count.toNat < max ∧ s.acc.toNat < 2 ^ (7 * s.status.count.toNat) := by
  cases h with
  | fixed hop => obtain hv | hv := ho.op_eq <;> simp [hv] at hop
  | varEnc hop => exact absurd (hop.dir.symm.trans ho.dir) (by decide)
  | varDec hop hk hacc =>
    obtain ⟨rfl, rfl⟩ := hop.unique ho
    exact ⟨hk, hacc⟩

/-- A state with a command in progress and the outcome fields clear meets the invariant. -/
theorem inv_of_progress (hf : s.fsm = .run)
    (hs : s.status.busy = true ∧ s.status.done = false ∧ s.status.valid = false ∧ s.status.err = .none)
    (h : Progress s) : Inv s := by
  obtain ⟨hb, hd, hv, he⟩ := hs
  exact {
    busy_iff_run := by simp [hb, hf]
    busy_outcome := fun _ => ⟨hd, hv, he⟩
    valid_done := by simp [hv]
    count_le := h.count_le
    op_legal := fun _ => h.legal
    fixed_count := fun _ => h.count_of_fixed
    varint_enc := fun _ ho => (h.of_varEnc (.inl ⟨ho, rfl, rfl⟩)).imp_left Nat.le_of_lt_succ
    varlong_enc := fun _ ho => (h.of_varEnc (.inr ⟨ho, rfl, rfl⟩)).imp_left Nat.le_of_lt_succ
    varint_dec := fun _ ho => (h.of_varDec (.inl ⟨ho, rfl, rfl⟩)).imp_left Nat.le_of_lt_succ
    varlong_dec := fun _ ho => (h.of_varDec (.inr ⟨ho, rfl, rfl⟩)).imp_left Nat.le_of_lt_succ
    fresh := by simp [hb]
    tooBig_outcome := by simp [he]
    io_outcome := by simp [he]
    illegal_outcome := by simp [he]
    valid_result := by simp [hv] }

theorem Finished.count_le (h : Finished s) : s.status.count.toNat ≤ 10 := by
  cases h with
  | encoded _ _ hk => exact hk
  | decoded _ hk => exact hk
  | tooBig _ _ hk => obtain hk | hk := hk <;> simp [hk]
  | io _ _ hk => omega
  | illegal _ _ hk => simp [hk]

/-- A finished command meets the invariant. -/
theorem inv_of_finished (hf : s.fsm = .idle) (hb : s.status.busy = false) (hd : s.status.done = true)
    (h : Finished s) : Inv s := by
  have hbusy : ¬ s.status.busy = true := by simp [hb]
  have hrun : ¬ s.fsm = .run := by simp [hf]
  refine {
    busy_iff_run := iff_of_false hbusy hrun
    busy_outcome := fun hc => absurd hc hbusy
    valid_done := ?_
    count_le := h.count_le
    op_legal := fun hc => absurd hc hrun
    fixed_count := fun hc => absurd hc hrun
    varint_enc := fun hc => absurd hc hrun
    varlong_enc := fun hc => absurd hc hrun
    varint_dec := fun hc => absurd hc hrun
    varlong_dec := fun hc => absurd hc hrun
    fresh := by simp [hd]
    tooBig_outcome := ?_
    io_outcome := ?_
    illegal_outcome := ?_
    valid_result := ?_ }
  all_goals cases h <;> simp_all

theorem inv_of_justReset (h : JustReset s) : Inv s := by
  obtain ⟨hf, hs⟩ := h
  constructor <;> simp [hf, hs]

/-- The invariant does not look at the reset input. -/
theorem Inv.with_resetInput (h : Inv s) (r : List ResetSample) : Inv { s with resetInput := r } := by
  cases h
  constructor <;> assumption

/-! ### Every step keeps the invariant -/

/-- A VarInt or VarLong encode that goes on has lost 7 more bits of REM, and is not at its last byte (R103). -/
theorem encStep_more {w max k : Nat} {r : Word64} (hw : w ≤ 7 * max) (hr : r.toNat < 2 ^ (w - 7 * k))
    (hl : (encStep (lowBits w r)).last = false) :
    k + 1 < max ∧ (encStep (lowBits w r)).rem.toNat < 2 ^ (w - 7 * (k + 1)) := by
  have hle : (lowBits w r).toNat ≤ r.toNat := lowBits_toNat w r ▸ Nat.mod_le _ _
  have h128 : 2 ^ 7 ≤ (lowBits w r).toNat := by simpa [encStep_last] using hl
  have hk : 7 < w - 7 * k := (Nat.pow_lt_pow_iff_right (by decide)).1 (h128.trans_lt (hle.trans_lt hr))
  refine ⟨by omega, ?_⟩
  have hsplit : 2 ^ (w - 7 * k) = 128 * 2 ^ (w - 7 * (k + 1)) := by
    rw [show w - 7 * k = 7 + (w - 7 * (k + 1)) by omega, pow_add]
    rfl
  rw [encStep_rem_toNat]
  exact Nat.div_lt_of_lt_mul (hsplit ▸ hle.trans_lt hr)

/-- A group taken at index `k` keeps ACC below bit 7(k+1) (R106, R107). -/
theorem decStep_lt {w k : Nat} {acc : Word64} (b : Byte) (hw : 7 ≤ w) (h : acc.toNat < 2 ^ (7 * k)) :
    (decStep (lowBits w acc) k b).toNat < 2 ^ (7 * (k + 1)) := by
  have hlow : (lowBits w acc).toNat < 2 ^ (7 * k) := (lowBits_toNat w acc ▸ Nat.mod_le _ _).trans_lt h
  have hgroup : b.toNat % 128 * 2 ^ (7 * k) ≤ 127 * 2 ^ (7 * k) := Nat.mul_le_mul_right _ (by omega)
  have hpow : 2 ^ (7 * (k + 1)) = 128 * 2 ^ (7 * k) := by 
    rw [mul_add, pow_add, mul_comm]
    rfl
  rw [decStep_toNat b hw hlow]
  refine (Nat.mod_le _ _).trans_lt ?_
  omega

theorem boolValue_le_one (b : Byte) : (boolValue b).toNat ≤ 1 := by
  unfold boolValue
  split <;> decide

/-- A widened value is in the signed range of its width (R10). -/
theorem sext64_range {n : Nat} (h : n ≤ 64) (v : BitVec n) :
    -2 ^ (n - 1) ≤ (sext64 v).toInt ∧ (sext64 v).toInt < 2 ^ (n - 1) := by
  rw [sext64_toInt h]
  exact ⟨BitVec.le_toInt v, BitVec.toInt_lt⟩

theorem progress_acceptBody (i : Instr) (s : State) : Progress (acceptBody i s) := by
  cases i with
  | boolEnc x => exact .fixed (by simp [Instr.opcode]) (by simp)
  | byteEnc x => exact .fixed (by simp [Instr.opcode]) (by simp)
  | varintEnc x =>
    refine .varEnc (.inl ⟨rfl, rfl, rfl⟩) (by simp) ?_
    simpa [acceptBody, operandSlice, zext64_toNat] using (lowBits 32 x).isLt
  | varlongEnc x => exact .varEnc (.inr ⟨rfl, rfl, rfl⟩) (by simp) (by simpa using BitVec.isLt _)
  | boolDec x => exact .fixed (by simp [Instr.opcode]) (by simp)
  | byteDec x => exact .fixed (by simp [Instr.opcode]) (by simp)
  | varintDec x => exact .varDec (.inl ⟨rfl, rfl, rfl⟩) (by simp) (by simp [acceptBody])
  | varlongDec x => exact .varDec (.inr ⟨rfl, rfl, rfl⟩) (by simp) (by simp [acceptBody])

theorem Transfer.inv (hi : Inv s) (hf : s.fsm = .run) (h : Transfer s t) : Inv t := by
  obtain ⟨hb, hd, hv, he⟩ := hi.outcome_clear hf
  have hk9 := hi.count_le_nine hf
  have hsucc := hi.count_succ hf
  have hk10 : (s.status.count + 1#4).toNat ≤ 10 := by omega
  cases h with
  | hold => exact hi
  | sinkFailed => exact inv_of_finished rfl rfl rfl (.io hv rfl hk9)
  | sourceFailed => exact inv_of_finished rfl rfl rfl (.io hv rfl hk9)
  | wroteOnly => exact inv_of_finished rfl rfl rfl (.encoded hv he (by simp))
  | wroteLast => exact inv_of_finished rfl rfl rfl (.encoded hv he hk10)
  | @wroteMore w max rest hop hs hl =>
    have hw : w ≤ 64 ∧ w ≤ 7 * max := by obtain ⟨-, rfl, rfl⟩ | ⟨-, rfl, rfl⟩ := hop <;> decide
    obtain ⟨hk, hr⟩ := encStep_more hw.2 (hi.varEnc hf hop).2 hl
    refine inv_of_progress hf ⟨hb, hd, hv, he⟩ (.varEnc hop ?_ ?_)
    · simpa [hsucc] using hk
    · simpa [hsucc, zext64_toNat hw.1] using hr
  | @readOnly b value rest hop =>
    refine inv_of_finished rfl rfl rfl (.decoded he (by simp) ?_)
    obtain ⟨ho, rfl⟩ | ⟨ho, rfl⟩ := hop
    · exact .inl ⟨ho, boolValue_le_one b⟩
    · exact .inr (.inl ⟨ho, sext64_range (by decide) b⟩)
  | readLast hop =>
    refine inv_of_finished rfl rfl rfl (.decoded he hk10 ?_)
    obtain ⟨ho, rfl, rfl⟩ | ⟨ho, rfl, rfl⟩ := hop
    · exact .inr (.inr (.inl ⟨ho, sext64_range (by decide) _⟩))
    · exact .inr (.inr (.inr ho))
  | readTooBig hop hs hk hc hm =>
    refine inv_of_finished rfl rfl rfl (.tooBig hv rfl ?_)
    obtain ⟨-, -, rfl⟩ | ⟨-, -, rfl⟩ := hop
    · exact .inl (BitVec.eq_of_toNat_eq hm)
    · exact .inr (BitVec.eq_of_toNat_eq hm)
  | @readMore w max b rest hop hs hk hc hm =>
    have hw : 7 ≤ w ∧ w ≤ 64 := by obtain ⟨-, rfl, -⟩ | ⟨-, rfl, -⟩ := hop <;> decide
    have hacc := decStep_lt b hw.1 (hi.varDec hf hop).2
    refine inv_of_progress hf ⟨hb, hd, hv, he⟩ (.varDec hop ?_ ?_)
    · simp only [gathered_status, Status.countUp_count]
      omega
    · simpa [hsucc, zext64_toNat hw.2] using hacc

theorem BlockEvent.inv (hi : Inv s) (h : BlockEvent s t) : Inv t := by
  cases h with
  | unoffered => exact hi
  | accept hf ho => exact inv_of_progress (by simp) (by simp) (progress_acceptBody _ _)
  | acceptIllegal hf ho hc => exact inv_of_finished hf (hi.busy_of_idle hf) rfl (.illegal rfl rfl rfl)
  | transfer hf ht => exact ht.inv hi hf

/-- Settles O41: a reset gives a state just reset, and each of the block's events keeps the invariant. -/
theorem everyStepKeepsTheInvariant : Obligations.EveryStepKeepsTheInvariant := by
  intro s t hi h
  obtain ⟨l, rest, -, rfl⟩ | ⟨-, he⟩ := step_next_cases h
  · exact inv_of_justReset ⟨rfl, rfl⟩
  · exact he.inv (hi.with_resetInput _)

/-- Settles O40: the reset state is just reset. -/
theorem resetStateMeetsTheInvariant : Obligations.ResetStateMeetsTheInvariant := inv_of_justReset ⟨rfl, rfl⟩

/-! ### Runs -/

theorem encodeOneByte_next (b : Byte) (s : State) : ∃ u, encodeOneByte b s = .next u :=
  snkWrite_next fun _ => ⟨_, rfl⟩

theorem decodeOneByte_next (value : Byte → Word64) (s : State) : ∃ u, decodeOneByte value s = .next u :=
  srcRead_next fun _ _ => ⟨_, rfl⟩

/-- A transfer of a state that meets the invariant goes on: DecStep is met at an index below MAX only (R104, R184). -/
theorem transferBody_next {i : Instr} (hi : Inv s) (hf : s.fsm = .run) (hop : s.op = i.opcode) :
    ∃ t, transferBody i s = .next t := by
  have hdec {w max : Nat} (hv : IsVarDec s.op w max) : ∃ t, decodeVarStep w max s = .next t :=
    (decodeVarStep_next_or_stop w max s).resolve_right fun h => absurd (hi.varDec hf hv).1 (Nat.not_lt.2 h.2.1)
  cases i with
  | boolEnc => exact encodeOneByte_next _ s
  | byteEnc => exact encodeOneByte_next _ s
  | varintEnc => exact encodeVarStep_next 32 s
  | varlongEnc => exact encodeVarStep_next 64 s
  | boolDec => exact decodeOneByte_next _ s
  | byteDec => exact decodeOneByte_next _ s
  | varintDec => exact hdec (.inl ⟨hop, rfl, rfl⟩)
  | varlongDec => exact hdec (.inr ⟨hop, rfl, rfl⟩)

/-- R184: a step goes on from every state that meets the invariant. -/
theorem Inv.safeStep (hi : Inv s) : SafeStep s := by
  obtain ⟨l, rest, hr⟩ | hn := asserted_or_notReset s
  · exact ⟨_, step_of_asserted hr⟩
  · unfold SafeStep
    rw [step_of_notReset hn]
    obtain ⟨-, -, hb⟩ | ⟨c, later, i, -, -, -, hb⟩ | ⟨c, later, e, -, -, -, hb⟩ | ⟨i, hf, hd, hb⟩ |
      ⟨e, hf, hd, -⟩ := blockStep_cases { s with resetInput := s.resetInput.tail }
    · exact ⟨_, hb⟩
    · exact ⟨_, hb⟩
    · exact ⟨_, hb⟩
    · exact hb ▸ transferBody_next (hi.with_resetInput _) hf (congrArg Command.op (decode_ok_iff.1 hd)).symm
    · simpa [hi.op_legal hf] using legal_eq_false_of_decode_error hd

/-- Every run from a state that meets the invariant has a last state, which meets it too. -/
theorem Inv.run (hi : Inv s) (n : Nat) : ∃ t, core.run n s = .next t ∧ Inv t := by
  induction n generalizing s with
  | zero => exact ⟨s, rfl, hi⟩
  | succ n ih =>
    obtain ⟨u, hu⟩ := hi.safeStep
    obtain ⟨t, ht, hit⟩ := ih (everyStepKeepsTheInvariant s u hi hu)
    have hcore : core.step s = .next u := hu
    exact ⟨t, by simp only [Host.Core.run, hcore, ht], hit⟩

/-- A register below 2^32 has no bit at 32 or above. -/
theorem high_half_zero {x : Word64} (h : x.toNat < 2 ^ 32) : x.extractLsb' 32 32 = 0#32 := by
  apply BitVec.eq_of_toNat_eq
  rw [BitVec.extractLsb'_toNat, Nat.shiftRight_eq_div_pow, Nat.div_eq_of_lt h]
  rfl

/-- The invariant says all that R39 says. -/
theorem Inv.specInvariant (hi : Inv s) : SpecInvariant s where
  busy_outcome := hi.busy_outcome
  valid_done := hi.valid_done
  count_le := hi.count_le
  varint_count hf ho := ho.elim (fun h => (hi.varint_enc hf h).1) fun h => (hi.varint_dec hf h).1
  varlong_count hf ho := ho.elim (fun h => (hi.varlong_enc hf h).1) fun h => (hi.varlong_dec hf h).1
  varint_rem hf ho :=
    high_half_zero ((hi.varint_enc hf ho).2.trans_le (Nat.pow_le_pow_right (by decide) (Nat.sub_le _ _)))
  varint_acc hf ho := by
    obtain ⟨hk, hacc⟩ := hi.varint_dec hf ho
    exact high_half_zero (hacc.trans_le (Nat.pow_le_pow_right (by decide) (by omega)))

/-- Settles O43, from the invariant along the run. -/
theorem reachableStatesMeetTheSpecInvariant : Obligations.ReachableStatesMeetTheSpecInvariant := by
  intro s n h
  obtain ⟨t, ht, hi⟩ := (inv_of_justReset h).run n
  exact ⟨t, ht, hi.specInvariant, hi.busy_iff_run⟩

end

end Sys2Proof.Machine
end

section
/-! PROOFS. The statements about single steps (10_state.md R24 to R44), each from the events a step can be. -/

namespace Sys2Proof.Machine

open Sys2Proof.Config (IoCause)

section
variable {s t : State}

/-! ### Which body a step runs, where it holds and where it stops -/

/-- In IDLE a step with an offer that decodes to an instruction accepts it (R43, R63). -/
theorem blockStep_of_offer {c : Command} {later : List Command} {i : Instr} (hf : s.fsm = .idle)
    (ho : s.offers = c :: later) (hd : decode c = .ok i) : blockStep s = exec i { s with offers := later } := by
  simp only [blockStep, hf, takeOffer, ho, hd]

/-- In RUN a step takes the transfer body of the instruction OP names (R44). -/
theorem blockStep_of_run {i : Instr} (hf : s.fsm = .run) (hop : s.op = i.opcode) :
    blockStep s = transferBody i s := by
  have hd : decode (commandInProgress s) = .ok (withOperand 0#64 i) :=
    decode_ok_iff.2 (by rw [encode_withOperand, commandInProgress, hop])
  rw [← transferBody_withOperand 0#64 i, ← exec_of_run hf]
  simp only [blockStep, hf, hd]

/-- Settles O5: the reset sample is taken, then the offer. -/
theorem idleStepRunsTheOfferedCommand : Obligations.IdleStepRunsTheOfferedCommand := by
  intro s c later i hn hf ho hd
  rw [step_of_notReset hn]
  exact blockStep_of_offer hf ho hd

/-- Settles O6: decoding fixes the opcode, and a transfer body does not use OPERAND. -/
theorem runStepRunsTheCommandInProgress : Obligations.RunStepRunsTheCommandInProgress := by
  intro s operand i hn hf hd
  have hop : s.op = i.opcode := (congrArg Command.op (decode_ok_iff.1 hd)).symm
  have hr : ({ s with resetInput := s.resetInput.tail } : State).fsm = .run := hf
  rw [step_of_notReset hn, exec_of_run hr]
  exact blockStep_of_run hr hop

/-- A byte at an index of MAX or more stops DecodeVarStep (R104). -/
theorem decodeVarStep_stops {w max : Nat} {b : Byte} {rest : List SrcAnswer} (hs : s.srcAnswers = .byte b :: rest)
    (hk : max ≤ s.status.count.toNat) : decodeVarStep w max s = .fault .decStepIndexOutOfRange := by
  rw [decodeVarStep, srcRead_of_byte hs, takeGroup, if_neg (Nat.not_lt.2 hk)]

/-- Settles O24: an OP that names no command does not decode, and DecStep is not defined at MAX. -/
theorem whereTheModelStops : Obligations.WhereTheModelStops := by
  refine ⟨fun s hn hf hl => ?_, fun x s b later hf hs => ⟨fun hk => ?_, fun hk => ?_⟩⟩
  · obtain ⟨e, he⟩ := decode_error_of_illegal (c := commandInProgress s) hl
    rw [step_of_notReset hn]
    simp only [commandInProgress] at he
    simp only [blockStep, hf, commandInProgress, he]
  · exact (exec_of_run hf _).trans (decodeVarStep_stops hs hk)
  · exact (exec_of_run hf _).trans (decodeVarStep_stops hs hk)

/-- A transfer without an answer changes nothing (R52). -/
theorem Transfer.eq_of_silent (hp : PortSilent s) (h : Transfer s t) : t = s := by
  have hsnk (hdir : s.op.getLsbD 3 = false) : s.snkAnswers = [] := by simp_all [PortSilent]
  have hsrc (hdir : s.op.getLsbD 3 = true) : s.srcAnswers = [] := by simp_all [PortSilent]
  cases h with
  | hold => rfl
  | sinkFailed hdir hs => simp [hsnk hdir] at hs
  | sourceFailed hdir hs => simp [hsrc hdir] at hs
  | wroteOnly hop hs => simp [hsnk hop.dir] at hs
  | wroteLast hop hs => simp [hsnk hop.dir] at hs
  | wroteMore hop hs => simp [hsnk hop.dir] at hs
  | readOnly hop hs => simp [hsrc hop.dir] at hs
  | readLast hop hs => simp [hsrc hop.dir] at hs
  | readTooBig hop hs => simp [hsrc hop.dir] at hs
  | readMore hop hs => simp [hsrc hop.dir] at hs

/-- The block's own step changes nothing while nothing is offered in IDLE, or the port DIR selects is silent in RUN. -/
theorem BlockEvent.eq_of_waiting (hw : (s.fsm = .idle ∧ s.offers = []) ∨ (s.fsm = .run ∧ PortSilent s))
    (h : BlockEvent s t) : t = s := by
  cases h with
  | unoffered => rfl
  | accept hf ho => simp [hf, ho] at hw
  | acceptIllegal hf ho => simp [hf, ho] at hw
  | transfer hf ht => exact ht.eq_of_silent (by simpa [hf] using hw)

/-- Settles O12: the step goes on (R184), and every event but a hold needs an offer or an answer. -/
theorem blockHoldsWithoutAnAnswer : Obligations.BlockHoldsWithoutAnAnswer := by
  intro s hi hn hw
  obtain ⟨t, h⟩ := hi.safeStep
  have he := h
  rw [step_of_notReset hn] at he
  have ht : t = { s with resetInput := s.resetInput.tail } := BlockEvent.eq_of_waiting
    (hw.imp_right fun hr => hr.elim (fun h => ⟨h.1, .inl h.2⟩) fun h => ⟨h.1, .inr h.2⟩) (blockEvent_of_blockStep he)
  rw [h, ht]

/-! ### What a step writes -/

/-- The rows of the write table that a transfer can be (R38, R44). -/
theorem Transfer.row (hi : Inv s) (hf : s.fsm = .run) (h : Transfer s t) :
    (t.fsm = .run ∧
      ((s.op.getLsbD 3 = false ∧ s.snkAnswers = .ack :: t.snkAnswers ∧ ∃ b, t.acked = s.acked ++ [b]) ∨
        (s.op.getLsbD 3 = true ∧ ∃ b, s.srcAnswers = .byte b :: t.srcAnswers)) ∧
      t.status = { s.status with count := s.status.count + 1#4 } ∧
      t.result = s.result ∧ t.iocause = s.iocause) ∨
    (t.fsm = .idle ∧ s.op.getLsbD 3 = false ∧ s.snkAnswers = .ack :: t.snkAnswers ∧
      (∃ b, t.acked = s.acked ++ [b]) ∧
      t.status = { s.status with busy := false, done := true, count := s.status.count + 1#4 } ∧
      t.result = s.result ∧ t.iocause = s.iocause) ∨
    (t.fsm = .idle ∧ s.op.getLsbD 3 = true ∧ (∃ b, s.srcAnswers = .byte b :: t.srcAnswers) ∧
      t.status = { s.status with busy := false, done := true, valid := true, count := s.status.count + 1#4 } ∧
      t.iocause = s.iocause) ∨
    (t.fsm = .idle ∧ (s.op = 0x0A#8 ∨ s.op = 0x0B#8) ∧ (∃ b, s.srcAnswers = .byte b :: t.srcAnswers) ∧
      t.status = { s.status with busy := false, done := true, err := .tooBig, count := s.status.count + 1#4 } ∧
      t.result = s.result ∧ t.iocause = s.iocause) ∨
    (t.fsm = .idle ∧
      ((s.op.getLsbD 3 = false ∧ s.snkAnswers = .fail t.iocause :: t.snkAnswers) ∨
        (s.op.getLsbD 3 = true ∧ s.srcAnswers = .fail t.iocause :: t.srcAnswers)) ∧
      t.status = { s.status with busy := false, done := true, err := .io } ∧ t.result = s.result) ∨
    (PortSilent s ∧ t = s) := by
  cases h with
  | hold hp => exact .inr (.inr (.inr (.inr (.inr ⟨hp, rfl⟩))))
  | sinkFailed hdir hs => exact .inr (.inr (.inr (.inr (.inl ⟨rfl, .inl ⟨hdir, hs⟩, rfl, rfl⟩))))
  | sourceFailed hdir hs => exact .inr (.inr (.inr (.inr (.inl ⟨rfl, .inr ⟨hdir, hs⟩, rfl, rfl⟩))))
  | wroteOnly hop hs =>
    have hk := hi.count_of_fixedEnc hf hop
    exact .inr (.inl ⟨rfl, hop.dir, hs, ⟨_, rfl⟩, by simp [Status.complete, Status.countOne, hk], rfl, rfl⟩)
  | wroteLast hop hs => exact .inr (.inl ⟨rfl, hop.dir, hs, ⟨_, rfl⟩, rfl, rfl, rfl⟩)
  | wroteMore hop hs => exact .inl ⟨hf, .inl ⟨hop.dir, hs, _, rfl⟩, rfl, rfl, rfl⟩
  | readOnly hop hs =>
    have hk := hi.count_of_fixedDec hf hop
    exact .inr (.inr (.inl ⟨rfl, hop.dir, ⟨_, hs⟩,
      by simp [Status.complete, Status.setValid, Status.countOne, hk], rfl⟩))
  | readLast hop hs => exact .inr (.inr (.inl ⟨rfl, hop.dir, ⟨_, hs⟩, rfl, rfl⟩))
  | readTooBig hop hs => exact .inr (.inr (.inr (.inl ⟨rfl, hop.op_eq, ⟨_, hs⟩, rfl, rfl, rfl⟩)))
  | readMore hop hs => exact .inl ⟨hf, .inr ⟨hop.dir, _, hs⟩, rfl, rfl, rfl⟩

/-- Settles O44: each event is a row of the table of R38. -/
theorem writeTableOfStatusResultIocause : Obligations.WriteTableOfStatusResultIocause := by
  intro s t hi h
  obtain ⟨l, rest, hr, rfl⟩ | ⟨hn, he⟩ := step_next_cases h
  · exact .inl ⟨rfl, rfl, by simp, by simp, l, by simpa using hr⟩
  · refine .inr ⟨hn, ?_⟩
    cases he with
    | unoffered hf ho => exact .inr (.inr (.inr (.inr (.inr (.inr (.inr ⟨.inl ⟨hf, ho⟩, rfl⟩))))))
    | @accept i later hf ho =>
      exact .inl ⟨hf, by simp, ⟨encode i, by simpa using ho, legal_opcode i⟩,
        by simp [Status.clearOutcome, Status.setBusy], by simp, by simp⟩
    | acceptIllegal hf ho hc =>
      have hb := hi.busy_of_idle hf
      exact .inr (.inl ⟨hf, hf, ⟨_, ho, hc⟩, by simp [Status.clearOutcome, Status.markIllegal, hb], rfl, rfl⟩)
    | transfer hf ht =>
      obtain h | h | h | h | h | ⟨hp | hp, rfl⟩ := ht.row (hi.with_resetInput _) hf
      · exact .inr (.inr (.inl ⟨hf, h⟩))
      · exact .inr (.inr (.inr (.inl ⟨hf, h⟩)))
      · exact .inr (.inr (.inr (.inr (.inl ⟨hf, h⟩))))
      · exact .inr (.inr (.inr (.inr (.inr (.inl ⟨hf, h⟩)))))
      · exact .inr (.inr (.inr (.inr (.inr (.inr (.inl ⟨hf, h⟩))))))
      · exact .inr (.inr (.inr (.inr (.inr (.inr (.inr ⟨.inr (.inl ⟨hf, hp⟩), rfl⟩))))))
      · exact .inr (.inr (.inr (.inr (.inr (.inr (.inr ⟨.inr (.inr ⟨hf, hp⟩), rfl⟩))))))

/-- A transfer leaves RESULT and VALID, unless it reads the byte that completes a decode (R27, R32). -/
theorem Transfer.result_valid (h : Transfer s t) :
    (t.result = s.result ∧ t.status.valid = s.status.valid) ∨
    (s.op.getLsbD 3 = true ∧ (∃ b, s.srcAnswers = .byte b :: t.srcAnswers) ∧
      t.fsm = .idle ∧ t.status.valid = true ∧ t.status.done = true ∧ t.status.busy = false) := by
  cases h with
  | readOnly hop hs => exact .inr ⟨hop.dir, ⟨_, hs⟩, rfl, rfl, rfl, rfl⟩
  | readLast hop hs => exact .inr ⟨hop.dir, ⟨_, hs⟩, rfl, rfl, rfl, rfl⟩
  | _ => exact .inl ⟨rfl, rfl⟩

/-- Settles O45: of all events only the end of a decode writes RESULT or sets VALID. -/
theorem resultIsWrittenOnlyByASuccessfulDecode : Obligations.ResultIsWrittenOnlyByASuccessfulDecode := by
  intro s t h hw
  obtain ⟨l, rest, -, rfl⟩ | ⟨-, he⟩ := step_next_cases h
  · simp at hw
  · cases he with
    | unoffered => simp at hw
    | accept => simp at hw
    | acceptIllegal => simp at hw
    | transfer hf ht =>
      obtain ⟨hr, hv⟩ | hd := ht.result_valid
      · simp [hr, hv] at hw
      · exact ⟨hf, hd⟩

theorem Transfer.op (h : Transfer s t) : t.op = s.op := by cases h <;> rfl

/-- Only an acknowledged write of a VarInt or VarLong encode writes REM in RUN (R36). -/
theorem Transfer.rem_of_ne (h : Transfer s t) (hne : t.rem ≠ s.rem) :
    (s.op = 0x02#8 ∨ s.op = 0x03#8) ∧ s.snkAnswers = .ack :: t.snkAnswers := by
  cases h with
  | wroteLast hop hs => exact ⟨hop.op_eq, hs⟩
  | wroteMore hop hs => exact ⟨hop.op_eq, hs⟩
  | _ => exact absurd rfl hne

/-- Only a byte read by a VarInt or VarLong decode writes ACC in RUN (R37). -/
theorem Transfer.acc_of_ne (h : Transfer s t) (hne : t.acc ≠ s.acc) :
    (s.op = 0x0A#8 ∨ s.op = 0x0B#8) ∧ ∃ b, s.srcAnswers = .byte b :: t.srcAnswers := by
  cases h with
  | readLast hop hs => exact ⟨hop.op_eq, _, hs⟩
  | readTooBig hop hs => exact ⟨hop.op_eq, _, hs⟩
  | readMore hop hs => exact ⟨hop.op_eq, _, hs⟩
  | _ => exact absurd rfl hne

/-- Settles O46: the acceptance of a legal command and the transfers are the only events that write them. -/
theorem hiddenRegistersAreWrittenAsTheRulesSay : Obligations.HiddenRegistersAreWrittenAsTheRulesSay := by
  intro s t h
  obtain ⟨l, rest, -, rfl⟩ | ⟨-, he⟩ := step_next_cases h
  · simp
  · cases he with
    | unoffered => simp
    | acceptIllegal => simp
    | @accept i later hf ho =>
      refine ⟨fun _ => ⟨hf, by simp, encode i, by simpa using ho, legal_opcode i, by simp [encode]⟩,
        fun hne => .inl ⟨hf, by simp, ?_⟩, fun hne => .inl ⟨hf, by simp, ?_⟩⟩
      · simpa using (acceptBody_rem_or_encode i _).resolve_left hne
      · simpa using (acceptBody_acc_or_decode i _).resolve_left hne
    | transfer hf ht =>
      exact ⟨fun hne => absurd ht.op hne, fun hne => .inr ⟨hf, ht.rem_of_ne hne⟩,
        fun hne => .inr ⟨hf, ht.acc_of_ne hne⟩⟩

/-- A transfer leaves COUNT if no transaction succeeded, and adds 1 to it for the byte written or read (R29). -/
theorem Transfer.count (hi : Inv s) (hf : s.fsm = .run) (h : Transfer s t) :
    (t.status.count = s.status.count ∧ t.acked = s.acked ∧
      (t.srcAnswers = s.srcAnswers ∨ ∃ c, s.srcAnswers = .fail c :: t.srcAnswers)) ∨
    (t.status.count.toNat = s.status.count.toNat + 1 ∧
      ((t.srcAnswers = s.srcAnswers ∧ ∃ b, t.acked = s.acked ++ [b]) ∨
        (t.acked = s.acked ∧ ∃ b, s.srcAnswers = .byte b :: t.srcAnswers))) := by
  have hsucc := hi.count_succ hf
  cases h with
  | hold => exact .inl ⟨rfl, rfl, .inl rfl⟩
  | sinkFailed => exact .inl ⟨rfl, rfl, .inl rfl⟩
  | sourceFailed _ hs => exact .inl ⟨rfl, rfl, .inr ⟨_, hs⟩⟩
  | wroteOnly hop => exact .inr ⟨by simp [hi.count_of_fixedEnc hf hop], .inl ⟨rfl, _, rfl⟩⟩
  | wroteLast => exact .inr ⟨hsucc, .inl ⟨rfl, _, rfl⟩⟩
  | wroteMore => exact .inr ⟨hsucc, .inl ⟨rfl, _, rfl⟩⟩
  | readOnly hop hs => exact .inr ⟨by simp [hi.count_of_fixedDec hf hop], .inr ⟨rfl, _, hs⟩⟩
  | readLast _ hs => exact .inr ⟨hsucc, .inr ⟨rfl, _, hs⟩⟩
  | readTooBig _ hs => exact .inr ⟨hsucc, .inr ⟨rfl, _, hs⟩⟩
  | readMore _ hs => exact .inr ⟨hsucc, .inr ⟨rfl, _, hs⟩⟩

/-- Settles O49: the step is a transfer, and COUNT does not wrap (R22, R39). -/
theorem countIsTheSuccessfulTransactions : Obligations.CountIsTheSuccessfulTransactions := by
  intro s t hi hn hf h
  have hcount := (transfer_of_step hn hf h).count (hi.with_resetInput s.resetInput.tail) hf
  dsimp only at hcount
  obtain ⟨hk, ha, hs | ⟨c, hs⟩⟩ | ⟨hk, ⟨hs, b, ha⟩ | ⟨ha, b, hs⟩⟩ := hcount
  · simp [hk, ha, hs]
  · simp [hk, ha, hs]
  · simp [hk, ha, hs]
  · simp [hk, ha, hs]

/-- Settles O50: with DONE = 1 the block is IDLE, where every event but a hold takes an offer. -/
theorem outcomeStaysUntilAcceptanceOrReset : Obligations.OutcomeStaysUntilAcceptanceOrReset := by
  intro s t hi hd hn h ho
  rw [step_of_notReset hn] at h
  cases blockEvent_of_blockStep h with
  | unoffered => rfl
  | accept hf hs => simp_all
  | acceptIllegal hf hs => simp_all
  | transfer hf => simp [(hi.outcome_clear hf).2.1] at hd

/-! ### What the host reads -/

/-- Settles O11, by evaluation of the one reset state. -/
theorem resetStateIsIdleWithStatusZero : Obligations.ResetStateIsIdleWithStatusZero := by
  exact ⟨rfl, by decide, rfl, rfl, rfl⟩

/-- Where each field of STATUS stands in its word (R24, R30). -/
theorem status_word_layout (u : Status) :
    u.word.getLsbD 0 = u.busy ∧ u.word.getLsbD 1 = u.done ∧ u.word.getLsbD 2 = u.valid ∧ u.word.getLsbD 3 = false ∧
    u.word.extractLsb' 4 3 = u.err.code ∧ u.word.getLsbD 7 = false ∧ u.word.extractLsb' 8 4 = u.count ∧
    u.word.extractLsb' 12 4 = 0#4 := by
  obtain ⟨busy, done, valid, err, count⟩ := u
  cases err <;> revert busy done valid count <;> decide

/-- Settles O52, from the layout of the word. -/
theorem statusWordLayout : Obligations.StatusWordLayout := by
  intro s
  have h := status_word_layout s.status
  cases he : s.status.err <;> simpa [readStatus, he, ErrCode.code] using h

end

/-! ### Failure values -/

/-- What a step answers, with every failure value in it relabelled by `f`. -/
def relabelResult (f : IoCause → IoCause) : Result → Result
  | .next t => .next (t.relabel f)
  | .fault r => .fault r
  | .refused r => .refused r

section
variable (f : IoCause → IoCause) {s : State}

theorem snkWrite_relabel {b : Byte} {k : State → Result} (hk : ∀ t, k (t.relabel f) = relabelResult f (k t)) :
    snkWrite b k (s.relabel f) = relabelResult f (snkWrite b k s) := by
  obtain ⟨hs, he⟩ | ⟨c, rest, hs, he⟩ | ⟨rest, hs, he⟩ := snkWrite_cases b k s <;> rw [he]
  · exact snkWrite_of_nil (by simp [State.relabel, hs])
  · exact snkWrite_of_fail (c := f c) (rest := ({ s with snkAnswers := rest } : State).relabel f |>.snkAnswers)
      (by simp [State.relabel, hs])
  · rw [← hk]
    exact snkWrite_of_ack (rest := ({ s with snkAnswers := rest } : State).relabel f |>.snkAnswers)
      (by simp [State.relabel, hs])

theorem srcRead_relabel {k : Byte → State → Result}
    (hk : ∀ b t, k b (t.relabel f) = relabelResult f (k b t)) :
    srcRead k (s.relabel f) = relabelResult f (srcRead k s) := by
  obtain ⟨hs, he⟩ | ⟨c, rest, hs, he⟩ | ⟨b, rest, hs, he⟩ := srcRead_cases k s <;> rw [he]
  · exact srcRead_of_nil (by simp [State.relabel, hs])
  · exact srcRead_of_fail (c := f c) (rest := ({ s with srcAnswers := rest } : State).relabel f |>.srcAnswers)
      (by simp [State.relabel, hs])
  · rw [← hk]
    exact srcRead_of_byte (rest := ({ s with srcAnswers := rest } : State).relabel f |>.srcAnswers)
      (by simp [State.relabel, hs])

theorem encodeOneByte_relabel (b : Byte) (s : State) :
    encodeOneByte b (s.relabel f) = relabelResult f (encodeOneByte b s) := by
  unfold encodeOneByte
  exact snkWrite_relabel f fun _ => rfl

theorem decodeOneByte_relabel (value : Byte → Word64) (s : State) :
    decodeOneByte value (s.relabel f) = relabelResult f (decodeOneByte value s) := by
  unfold decodeOneByte
  exact srcRead_relabel f fun _ _ => rfl

theorem encodeVarStep_relabel (w : Nat) (s : State) :
    encodeVarStep w (s.relabel f) = relabelResult f (encodeVarStep w s) := by
  unfold encodeVarStep
  exact snkWrite_relabel f fun t => by dsimp only; split <;> rfl

theorem takeGroup_relabel (w max : Nat) (b : Byte) (s : State) :
    takeGroup w max b (s.relabel f) = relabelResult f (takeGroup w max b s) := by
  simp only [takeGroup, apply_ite (relabelResult f)]
  rfl

theorem decodeVarStep_relabel (w max : Nat) (s : State) :
    decodeVarStep w max (s.relabel f) = relabelResult f (decodeVarStep w max s) :=
  srcRead_relabel f (takeGroup_relabel f w max)

theorem transferBody_relabel (i : Instr) (s : State) :
    transferBody i (s.relabel f) = relabelResult f (transferBody i s) := by
  cases i with
  | boolEnc => exact encodeOneByte_relabel f _ s
  | byteEnc => exact encodeOneByte_relabel f _ s
  | varintEnc => exact encodeVarStep_relabel f 32 s
  | varlongEnc => exact encodeVarStep_relabel f 64 s
  | boolDec => exact decodeOneByte_relabel f _ s
  | byteDec => exact decodeOneByte_relabel f _ s
  | varintDec => exact decodeVarStep_relabel f 32 5 s
  | varlongDec => exact decodeVarStep_relabel f 64 10 s

theorem acceptBody_relabel (i : Instr) (s : State) : acceptBody i (s.relabel f) = (acceptBody i s).relabel f := by
  cases i <;> rfl

theorem withdraw_relabel (l : Bool) (s : State) : withdraw l (s.relabel f) = (withdraw l s).relabel f := by
  have hfsm : (s.relabel f).fsm = s.fsm := rfl
  unfold withdraw
  rw [hfsm]
  split
  · split <;> simp_all [State.relabel, List.map_tail]
  · rfl

theorem blockStep_relabel (s : State) : blockStep (s.relabel f) = relabelResult f (blockStep s) := by
  have hfsm : (s.relabel f).fsm = s.fsm := rfl
  have hoffers : (s.relabel f).offers = s.offers := rfl
  obtain ⟨hf, ho, hb⟩ | ⟨c, later, i, hf, ho, hd, hb⟩ | ⟨c, later, e, hf, ho, hd, hb⟩ | ⟨i, hf, hd, hb⟩ |
    ⟨e, hf, hd, hb⟩ := blockStep_cases s <;> rw [hb]
  · simp only [blockStep, takeOffer, hfsm, hf, hoffers, ho, relabelResult]
  · rw [blockStep_of_offer (hfsm.trans hf) (hoffers.trans ho) hd, exec_of_idle (by exact hf)]
    exact congrArg _ (acceptBody_relabel f i { s with offers := later })
  · simp only [blockStep, takeOffer, hfsm, hf, hoffers, ho, hd]
    rfl
  · rw [blockStep_of_run (hfsm.trans hf) (congrArg Command.op (decode_ok_iff.1 hd)).symm]
    exact transferBody_relabel f i s
  · have hc : commandInProgress (s.relabel f) = ⟨s.op, 0#64⟩ := rfl
    simp only [blockStep, hfsm, hf, hc, hd, relabelResult]

theorem step_relabel (s : State) : step (s.relabel f) = relabelResult f (step s) := by
  obtain ⟨l, rest, hr⟩ | hn := asserted_or_notReset s
  · have hr' : (s.relabel f).resetInput = .asserted l :: rest := hr
    have hw := withdraw_relabel f l { s with resetInput := rest }
    rw [step_of_asserted hr, step_of_asserted hr']
    exact congrArg (fun u : State => Host.Outcome.next { u with status := Status.cleared, fsm := .idle }) hw
  · have hn' : NotReset 1 (s.relabel f) := hn
    rw [step_of_notReset hn, step_of_notReset hn']
    exact blockStep_relabel f { s with resetInput := s.resetInput.tail }

end

/-- Settles O51: relabelling commutes with every operation a step is made of. -/
theorem failureValuesAreOnlyCopied : Obligations.FailureValuesAreOnlyCopied := by
  intro f s t h
  rw [step_relabel, h, relabelResult]

end Sys2Proof.Machine
end

section
/-! PROOFS. A placed table word (20_memory.md R65; 30_encoding.md R92): it stands for the host's next offer, and
acceptance takes back the offer and the reset sample that the placement put in. -/

namespace Sys2Proof.Machine

/-- A table word is read by decoding the command with its bits (R75). -/
theorem decodeTableWord_eq_some {nbits w : Nat} {i : Instr} :
    decodeTableWord nbits w = some i ↔ decode (commandOfTableWord nbits w) = .ok i := by
  unfold decodeTableWord
  obtain ⟨j, hd⟩ | ⟨e, hd⟩ := decode_ok_or_error (commandOfTableWord nbits w) <;> simp [hd, Except.toOption]

/-- A command offered now is not met by a reset at the next step (R210). -/
theorem notReset_offerNow (c : Command) (s : State) : NotReset 1 (offerNow c s) := by simp [NotReset]

/-- The step after a legal command is offered now runs its instruction in IDLE, ready (R25, R43). -/
theorem step_offerNow {c : Command} {i : Instr} (hd : decode c = .ok i) (s : State) :
    step (offerNow c s) = exec i { s with fsm := .idle, status := { s.status with busy := false } } :=
  idleStepRunsTheOfferedCommand (offerNow c s) c s.offers i (notReset_offerNow c s) (offerNow_fsm c s)
    (offerNow_offers c s) hd

/-- Settles O7: `withFetchWord` offers the word's command, and the step accepts it. -/
theorem placedWordIsAcceptedNext : Obligations.PlacedWordIsAcceptedNext := by
  intro s nbits w i h
  exact step_offerNow (decodeTableWord_eq_some.1 h) s

end Sys2Proof.Machine
end

section
/-! PROOFS. The command encoding (30_encoding.md R70 to R79): a command as a table word, the decoder's order of checks,
and the OPERAND bits that are ignored. The round trip on the command port is `decode_ok_iff`. -/

namespace Sys2Proof.Machine

/-! ### Table words -/

theorem toTableWord_lt (c : Command) : c.toTableWord < 2 ^ 72 := by
  have hop := c.op.isLt
  have hx := c.operand.isLt
  unfold Command.toTableWord
  omega

/-- A table word that is not cut short holds every bit of its command (log entry 13). -/
theorem commandOfTableWord_toTableWord {nbits : Nat} {c : Command} (h : c.toTableWord < 2 ^ nbits) :
    commandOfTableWord nbits c.toTableWord = c := by
  have hop := c.op.isLt
  have hlow : BitVec.ofNat 8 c.toTableWord = c.op := by
    apply BitVec.eq_of_toNat_eq
    rw [BitVec.toNat_ofNat, Command.toTableWord]
    omega
  have hhigh : c.toTableWord / 2 ^ 8 = c.operand.toNat := by
    rw [Command.toTableWord]
    omega
  rw [commandOfTableWord, Nat.mod_eq_of_lt h, hlow, hhigh, BitVec.ofNat_toNat, BitVec.setWidth_eq]

/-- Decoding a table word that holds every bit of an instruction's command gives the instruction (R74, R75). -/
theorem decodeTableWord_encode {nbits : Nat} (i : Instr) (h : (encode i).toTableWord < 2 ^ nbits) :
    decodeTableWord nbits (encode i).toTableWord = some i := by
  rw [decodeTableWord_eq_some, commandOfTableWord_toTableWord h, decode_encode]

/-- Settles O1: the decoder undoes the encoder, and 72 bits hold the whole command. -/
theorem decodeOfEncodeIsTheInstruction : Obligations.DecodeOfEncodeIsTheInstruction :=
  fun i _ => ⟨decode_encode i, decodeTableWord_encode i (toTableWord_lt _)⟩

/-- Settles O4: with OPERAND 0 the 8 bits of OP hold the whole command. -/
theorem opcodeMapWordsDecode : Obligations.OpcodeMapWordsDecode :=
  ⟨decodeTableWord_encode (.boolEnc 0#64) (by decide), decodeTableWord_encode (.byteEnc 0#64) (by decide),
    decodeTableWord_encode (.varintEnc 0#64) (by decide), decodeTableWord_encode (.varlongEnc 0#64) (by decide),
    decodeTableWord_encode (.boolDec 0#64) (by decide), decodeTableWord_encode (.byteDec 0#64) (by decide),
    decodeTableWord_encode (.varintDec 0#64) (by decide), decodeTableWord_encode (.varlongDec 0#64) (by decide)⟩

/-! ### The decoder's checks -/

/-- Settles O2: a command decodes only to the instruction it encodes. -/
theorem encodeOfDecodeIsTheCommand : Obligations.EncodeOfDecodeIsTheCommand :=
  fun _ _ h => decode_ok_iff.1 h

/-- A command with RSV not 0 is rejected for it, before TYPE is looked at (R75). -/
theorem decode_of_rsvNonZero {c : Command} (h : c.op.extractLsb' 4 4 ≠ 0#4) : decode c = .error .rsvNonZero := by
  simp [decode, h]

/-- A command with RSV 0 and a reserved TYPE is rejected for its TYPE (R75). -/
theorem decode_of_reservedType {c : Command} (hr : c.op.extractLsb' 4 4 = 0#4) (ht : c.op.getLsbD 2 = true) :
    decode c = .error .reservedType := by
  simp [decode, hr, ht]

/-- A legal command decodes to an instruction of its OP and OPERAND (R74, R75). -/
theorem decode_of_legal {c : Command} (h : legal c.op = true) :
    ∃ i, decode c = .ok i ∧ i.opcode = c.op ∧ i.operand = c.operand := by
  obtain ⟨i, rfl⟩ := exists_encode_of_legal h
  exact ⟨i, decode_encode i, rfl, rfl⟩

/-- Settles O3: one clause per check of the decoder, and legality in the fields the checks look at. -/
theorem decoderIsTotalAndRejectsByName : Obligations.DecoderIsTotalAndRejectsByName := by
  refine fun c => ⟨decode_of_rsvNonZero, decode_of_reservedType, fun hr ht => ?_, legal_iff_fields c.op⟩
  have hl : legal c.op = true := (legal_iff_fields c.op).2 ⟨hr, ht⟩
  exact ⟨by simpa using opcode_of_legal hl, decode_of_legal hl⟩

/-! ### Ignored OPERAND bits -/

/-- Instructions with the same acceptance and the same transfer body take the same step (R43, R44). -/
theorem exec_congr {i j : Instr} {s : State} (ha : acceptBody i s = acceptBody j s)
    (ht : transferBody i s = transferBody j s) : exec i s = exec j s := by
  obtain hf | hf := Fsm.idle_or_run s.fsm
  · rw [exec_of_idle hf, exec_of_idle hf, ha]
  · rw [exec_of_run hf, exec_of_run hf, ht]

theorem lowBits_eq_of_mod {w : Nat} {x y : Word64} (h : x.toNat % 2 ^ w = y.toNat % 2 ^ w) :
    lowBits w x = lowBits w y := by
  apply BitVec.eq_of_toNat_eq
  rw [lowBits_toNat, lowBits_toNat, h]

/-- Two encodes of one opcode with the same operand slice are accepted alike (R78). -/
theorem acceptEncode_congr {op : BitVec 8} {ty : PrimType} {x y : Word64} (s : State)
    (h : operandSlice ty x = operandSlice ty y) : acceptEncode op ty x s = acceptEncode op ty y s := by
  rw [acceptEncode, acceptEncode, h]

/-- Settles O25: an encode's acceptance takes the slice of OPERAND only, a decode's takes nothing of it, and no transfer
body does. -/
theorem ignoredOperandBitsHaveNoEffect : Obligations.IgnoredOperandBitsHaveNoEffect := by
  refine fun x y s => ⟨fun h => ?_, fun h => ?_, fun h => ?_, exec_congr rfl rfl, exec_congr rfl rfl,
    exec_congr rfl rfl, exec_congr rfl rfl⟩
  · exact exec_congr (acceptEncode_congr s (congrArg zext64 (lowBits_eq_of_mod (w := 1) h))) rfl
  · exact exec_congr (acceptEncode_congr s (congrArg zext64 (lowBits_eq_of_mod h))) rfl
  · exact exec_congr (acceptEncode_congr s (congrArg zext64 (lowBits_eq_of_mod h))) rfl

end Sys2Proof.Machine
end

section
/-! PROOFS. Canonical encodings (30_encoding.md R81 to R84): the length and the bytes of a value by recursion on the
value without its lowest group, which is how the shifter makes them (40_shifter.md R101). -/

namespace Sys2Proof.Machine

/-- One more group is 7 more bits (R80). -/
theorem two_pow_groups_succ (k : Nat) : 2 ^ (7 * (k + 1)) = 128 * 2 ^ (7 * k) := by
  rw [mul_add, pow_add, mul_comm]
  rfl

/-- A value fits in one more group than what is left of it without its lowest group (R81). -/
theorem lt_two_pow_groups_succ {u k : Nat} : u < 2 ^ (7 * (k + 1)) ↔ u / 128 < 2 ^ (7 * k) := by
  rw [two_pow_groups_succ, Nat.div_lt_iff_lt_mul (by decide), mul_comm]

/-- A value of 128 or more does not fit in one group (R81). -/
theorem max_pos_of_ge {u max : Nat} (hu : 128 ≤ u) (h : u < 2 ^ (7 * (max + 1))) : 0 < max := by
  rw [Nat.pos_iff_ne_zero]
  rintro rfl
  omega

/-! ### The length -/

@[simp] theorem encLength_zero (u : Nat) : encLength 0 u = 0 := rfl

/-- A value below 2^7 takes one byte; any other takes one byte more than it does without its lowest group (R83). -/
theorem encLength_succ (max u : Nat) :
    encLength (max + 1) u = if u < 128 then 1 else encLength max (u / 128) + 1 := by
  unfold encLength
  rw [List.range_succ_eq_map, List.find?_cons, List.find?_map]
  by_cases hu : u < 128
  · simp [hu]
  · have hcomp : ((fun k => decide (u < 2 ^ (7 * (k + 1)))) ∘ Nat.succ) =
        fun k => decide (u / 128 < 2 ^ (7 * (k + 1))) := by
      funext k
      rw [Function.comp_apply, decide_eq_decide, Nat.succ_eq_add_one, lt_two_pow_groups_succ]
    rw [hcomp]
    simp only [zero_add, mul_one, Nat.reducePow, hu, decide_false, if_false]
    cases (List.range max).find? fun k => decide (u / 128 < 2 ^ (7 * (k + 1))) <;> rfl

theorem encLength_of_lt {u : Nat} (max : Nat) (h : u < 128) : encLength (max + 1) u = 1 := by
  rw [encLength_succ, if_pos h]

theorem encLength_of_ge {u : Nat} (max : Nat) (h : 128 ≤ u) :
    encLength (max + 1) u = encLength max (u / 128) + 1 := by
  rw [encLength_succ, if_neg (by omega)]

theorem encLength_le_max (max u : Nat) : encLength max u ≤ max := by
  induction max generalizing u with
  | zero => simp
  | succ max ih =>
    rw [encLength_succ]
    split
    · omega
    · exact Nat.succ_le_succ (ih _)

theorem encLength_pos {max : Nat} (h : 0 < max) (u : Nat) : 0 < encLength max u := by
  obtain ⟨m, rfl⟩ := Nat.exists_eq_succ_of_ne_zero h.ne'
  rw [encLength_succ]
  split <;> omega

/-- `k` groups, fewer than MAX, are enough exactly for the values below 2^(7k) (R83). -/
theorem encLength_le_iff {max k u : Nat} (hk : 0 < k) (hmax : k < max) : encLength max u ≤ k ↔ u < 2 ^ (7 * k) := by
  induction max generalizing k u with
  | zero => omega
  | succ max ih =>
    obtain ⟨j, rfl⟩ := Nat.exists_eq_succ_of_ne_zero hk.ne'
    rw [Nat.succ_eq_add_one, lt_two_pow_groups_succ]
    obtain hu | hu := lt_or_ge u 128
    · have : 1 ≤ 2 ^ (7 * j) := Nat.one_le_two_pow
      rw [encLength_of_lt max hu]
      exact iff_of_true (by omega) (by omega)
    · rw [encLength_of_ge max hu, Nat.add_le_add_iff_right]
      obtain rfl | hj := Nat.eq_zero_or_pos j
      · have := encLength_pos (max := max) (by omega) (u / 128)
        exact iff_of_false (by omega) (by omega)
      · exact ih hj (by omega)

theorem encLength_eq_one_iff {max u : Nat} (h : 1 < max) : encLength max u = 1 ↔ u < 2 ^ 7 := by
  have hpos := encLength_pos (max := max) (by omega) u
  rw [← encLength_le_iff Nat.one_pos h]
  omega

theorem encLength_eq_max_iff {max u : Nat} (h : 0 < max) : encLength (max + 1) u = max + 1 ↔ 2 ^ (7 * max) ≤ u := by
  have hle := encLength_le_max (max + 1) u
  rw [← not_lt, ← encLength_le_iff h (Nat.lt_add_one max)]
  omega

/-! ### The bytes -/

@[simp] theorem canonicalBytes_length (max u : Nat) : (canonicalBytes max u).length = encLength max u := by
  simp [canonicalBytes]

theorem canonicalBytes_of_lt {u : Nat} (max : Nat) (h : u < 128) :
    canonicalBytes (max + 1) u = [wireByte false (BitVec.ofNat 7 u)] := by
  simp [canonicalBytes, encLength_of_lt max h]

/-- The canonical encoding of 128 or more is the lowest group with the continuation bit, and then the canonical encoding
of the value without it (R81). -/
theorem canonicalBytes_of_ge {max u : Nat} (hmax : 0 < max) (h : 128 ≤ u) :
    canonicalBytes (max + 1) u = wireByte true (BitVec.ofNat 7 u) :: canonicalBytes max (u / 128) := by
  have hpos := encLength_pos hmax (u / 128)
  have hdiv : ∀ k, u / 2 ^ (7 * (k + 1)) = u / 128 / 2 ^ (7 * k) := fun k => by
    rw [Nat.div_div_eq_div_mul, mul_add, pow_add, mul_comm]
    rfl
  simp [canonicalBytes, encLength_of_ge max h, List.range_succ_eq_map, hpos, hdiv, Function.comp_def]

theorem encBytes_of_lt {w : Nat} {r : BitVec w} (max : Nat) (h : r.toNat < 128) :
    encBytes (max + 1) r = [wireByte false (BitVec.ofNat 7 r.toNat)] := by
  have hge : ¬ 128 ≤ r.toNat := by omega
  simp [encBytes, encStep_last, encStep_byte, h, hge]

theorem encBytes_of_ge {w : Nat} {r : BitVec w} (max : Nat) (h : 128 ≤ r.toNat) :
    encBytes (max + 1) r = wireByte true (BitVec.ofNat 7 r.toNat) :: encBytes max (encStep r).rem := by
  have hlt : ¬ r.toNat < 128 := by omega
  simp [encBytes, encStep_last, encStep_byte, h, hlt]

/-- The shifter writes the canonical encoding of every value that MAX groups can hold (R101). -/
theorem encBytes_eq_canonicalBytes {w max : Nat} {r : BitVec w} (h : r.toNat < 2 ^ (7 * max)) :
    encBytes max r = canonicalBytes max r.toNat := by
  induction max generalizing r with
  | zero => rfl
  | succ max ih =>
    obtain hr | hr := lt_or_ge r.toNat 128
    · rw [encBytes_of_lt max hr, canonicalBytes_of_lt max hr]
    · have hrem : (encStep r).rem.toNat < 2 ^ (7 * max) := by
        rw [encStep_rem_toNat]
        exact lt_two_pow_groups_succ.1 h
      have hmax : 0 < max := max_pos_of_ge hr h
      rw [encBytes_of_ge max hr, canonicalBytes_of_ge hmax hr, ih hrem, encStep_rem_toNat]

/-- Settles O31: 5 groups hold 32 bits, and 10 groups hold 64. -/
theorem shifterBytesAreCanonical : Obligations.ShifterBytesAreCanonical :=
  ⟨fun u => encBytes_eq_canonicalBytes (u.isLt.trans (by decide)),
    fun u => encBytes_eq_canonicalBytes (u.isLt.trans (by decide))⟩

/-- The canonical encoding of a value that is not 0, and that MAX groups can hold, does not end in 0x00 (R84). -/
theorem canonicalBytes_getLast {max u : Nat} (hu : 0 < u) (h : u < 2 ^ (7 * max)) :
    (canonicalBytes max u).getLast? ≠ some 0x00#8 := by
  induction max generalizing u with
  | zero => omega
  | succ max ih =>
    obtain hlt | hge := lt_or_ge u 128
    · rw [canonicalBytes_of_lt max hlt, List.getLast?_singleton, Ne, Option.some.injEq, ← BitVec.toNat_inj,
        wireByte_toNat, BitVec.toNat_ofNat, Nat.mod_eq_of_lt hlt]
      simpa using hu.ne'
    · have hmax : 0 < max := max_pos_of_ge hge h
      have hne : canonicalBytes max (u / 128) ≠ [] := by
        rw [← List.length_pos_iff, canonicalBytes_length]
        exact encLength_pos hmax _
      rw [canonicalBytes_of_ge hmax hge, List.getLast?_cons_of_ne_nil hne]
      exact ih (by omega) (lt_two_pow_groups_succ.1 h)

/-- The same, said of the length: an encoding of more than one byte is of a value that is not 0 (R84, R124). -/
theorem canonicalBytes_getLast_of_long {max u : Nat} (h : u < 2 ^ (7 * max)) (hlong : 1 < encLength max u) :
    (canonicalBytes max u).getLast? ≠ some 0x00#8 := by
  have hmax : 1 < max := hlong.trans_le (encLength_le_max max u)
  refine canonicalBytes_getLast ?_ h
  rw [Nat.pos_iff_ne_zero]
  rintro rfl
  rw [(encLength_eq_one_iff hmax).2 (by decide)] at hlong
  omega

/-- The lengths of canonical encodings, for a MAX of `max + 1` and the values that MAX groups can hold (R83, R84). -/
theorem encLength_laws {max u : Nat} (hmax : 0 < max) (hu : u < 2 ^ (7 * (max + 1))) :
    1 ≤ encLength (max + 1) u ∧ encLength (max + 1) u ≤ max + 1 ∧
    (encLength (max + 1) u = 1 ↔ u < 2 ^ 7) ∧ (encLength (max + 1) u = max + 1 ↔ 2 ^ (7 * max) ≤ u) ∧
    (canonicalBytes (max + 1) u).length = encLength (max + 1) u ∧
    (1 < encLength (max + 1) u → (canonicalBytes (max + 1) u).getLast? ≠ some 0x00#8) :=
  ⟨encLength_pos (Nat.succ_pos max) u, encLength_le_max _ u, encLength_eq_one_iff (by omega),
    encLength_eq_max_iff hmax, canonicalBytes_length _ u, canonicalBytes_getLast_of_long hu⟩

/-- Settles O32, at MAX = 5 and at MAX = 10. -/
theorem canonicalEncodingLengths : Obligations.CanonicalEncodingLengths :=
  ⟨fun u => encLength_laws (max := 4) (by decide) (u.isLt.trans (by decide)),
    fun u => encLength_laws (max := 9) (by decide) (u.isLt.trans (by decide))⟩

end Sys2Proof.Machine
end

section
/-! PROOFS. The assembler and the disassembler on lines (30_encoding.md R88 to R91): decimal operands as
two's-complement patterns, and the line of a command assembling back to it. -/

namespace Sys2Proof.Machine

/-! ### Decimal operands -/

/-- The number a decimal literal stands for (R89). -/
def decimalValue (negative : Bool) (n : Nat) : Int := if negative then -(n : Int) else n

@[simp] theorem decimalValue_false (n : Nat) : decimalValue false n = n := rfl
@[simp] theorem decimalValue_true (n : Nat) : decimalValue true n = -(n : Int) := rfl

/-- A decimal literal has a pattern exactly when its number is in the signed range of the width: the pattern with that
signed value (R89). -/
theorem signedPattern_dec (w : Nat) (negative : Bool) (n : Nat) :
    signedPattern w (.dec negative n) =
      if -2 ^ (w - 1) ≤ decimalValue negative n ∧ decimalValue negative n ≤ 2 ^ (w - 1) - 1 then
        some (BitVec.ofInt w (decimalValue negative n)) else none := by
  have hcast : ((2 ^ (w - 1) : Nat) : Int) = 2 ^ (w - 1) := Nat.cast_pow 2 (w - 1)
  have hpos : 0 < 2 ^ (w - 1) := Nat.two_pow_pos _
  cases negative with
  | false =>
    have hiff : -2 ^ (w - 1) ≤ (n : Int) ∧ (n : Int) ≤ 2 ^ (w - 1) - 1 ↔ n < 2 ^ (w - 1) := by omega
    rw [decimalValue_false, signedPattern, if_congr hiff rfl rfl, BitVec.ofInt_natCast]
  | true =>
    have hiff : -2 ^ (w - 1) ≤ -(n : Int) ∧ -(n : Int) ≤ 2 ^ (w - 1) - 1 ↔ n ≤ 2 ^ (w - 1) := by omega
    rw [decimalValue_true, signedPattern, if_congr hiff rfl rfl]

/-- `zext_64` of the two's-complement pattern of a number is its remainder modulo 2^w (R10, R89). -/
theorem zext64_ofInt {w : Nat} (hw : w ≤ 64) (v : Int) :
    zext64 (BitVec.ofInt w v) = BitVec.ofNat 64 (v % 2 ^ w).toNat := by
  apply BitVec.eq_of_toNat_eq
  have hlt : (BitVec.ofInt w v).toNat < 2 ^ 64 :=
    lt_of_lt_of_le (BitVec.isLt _) (Nat.pow_le_pow_right (by decide) hw)
  have hv : (BitVec.ofInt w v).toNat = (v % 2 ^ w).toNat := by simp [BitVec.toNat_ofInt]
  rw [zext64_toNat hw, BitVec.toNat_ofNat, ← hv, Nat.mod_eq_of_lt hlt]

/-- The OPERAND of a decimal literal at a width of at most 64 (R89). -/
theorem signedArg_dec {w : Nat} (hw : w ≤ 64) (negative : Bool) (n : Nat) :
    signedArg w (.lit (.dec negative n)) =
      if -2 ^ (w - 1) ≤ decimalValue negative n ∧ decimalValue negative n ≤ 2 ^ (w - 1) - 1 then
        some (BitVec.ofNat 64 (decimalValue negative n % 2 ^ w).toNat) else none := by
  rw [signedArg, signedPattern_dec, apply_ite (Option.map zext64), Option.map_some, Option.map_none,
    zext64_ofInt hw]

/-- Settles O54, at widths 8, 32 and 64. -/
theorem assemblerTakesTheSignedRange : Obligations.AssemblerTakesTheSignedRange := by
  rintro negative n v rfl
  refine ⟨?_, ?_, ?_⟩ <;> rw [assemble, signedArg_dec (by decide), apply_ite (Option.map _)] <;> rfl

/-! ### Lines -/

/-- The disassembler prints the signed value of a pattern in decimal (R91). -/
theorem signedLiteral_eq_dec {w : Nat} (p : BitVec w) :
    ∃ negative n, signedLiteral p = .dec negative n ∧ decimalValue negative n = p.toInt := by
  have hlt := p.isLt
  cases h : p.msb
  · exact ⟨false, p.toNat, by simp [signedLiteral, h], by simp [BitVec.toInt_eq_msb_cond, h]⟩
  · refine ⟨true, 2 ^ w - p.toNat, by simp [signedLiteral, h], ?_⟩
    rw [decimalValue_true, BitVec.toInt_eq_msb_cond, if_pos h]
    omega

/-- The signed value the disassembler prints is in range, and has the pattern it was read from (R89, R91). -/
theorem signedPattern_signedLiteral {w : Nat} (p : BitVec w) :
    signedPattern w (signedLiteral p) = some p := by
  obtain ⟨negative, n, hl, hv⟩ := signedLiteral_eq_dec p
  have hle := BitVec.le_toInt p
  have hlt := BitVec.toInt_lt (x := p)
  rw [hl, signedPattern_dec, hv, if_pos ⟨hle, by omega⟩, BitVec.ofInt_toInt]

/-- A register below 2^w is its low w bits with zeros above. -/
theorem zext64_lowBits {w : Nat} {x : Word64} (hw : w ≤ 64) (h : x.toNat < 2 ^ w) : zext64 (lowBits w x) = x := by
  apply BitVec.eq_of_toNat_eq
  rw [zext64_toNat hw, lowBits_toNat, Nat.mod_eq_of_lt h]

theorem signedArg_signedLiteral {w : Nat} {x : Word64} (hw : w ≤ 64) (h : x.toNat < 2 ^ w) :
    signedArg w (.lit (signedLiteral (lowBits w x))) = some x := by
  rw [signedArg, signedPattern_signedLiteral, Option.map_some, zext64_lowBits hw h]

theorem boolPattern_getLsbD {x : Word64} (h : x.toNat < 2) :
    boolPattern (if x.getLsbD 0 then .tru else .fls) = some x := by
  obtain hx | hx : x.toNat = 0 ∨ x.toNat = 1 := by omega
  · rw [BitVec.eq_of_toNat_eq (y := 0#64) hx]
    rfl
  · rw [BitVec.eq_of_toNat_eq (y := 1#64) hx]
    rfl

/-- The mnemonic form of an instruction that sets no ignored OPERAND bit assembles to its command (R88, R91). -/
theorem assemble_mnemonicLine {i : Instr} (h : i.canonical = true) : assemble (mnemonicLine i) = some (encode i) := by
  cases i with
  | boolEnc x =>
    rw [mnemonicLine, assemble, boolPattern_getLsbD (of_decide_eq_true h)]
    rfl
  | byteEnc x =>
    rw [mnemonicLine, assemble, signedArg_signedLiteral (by decide) (of_decide_eq_true h)]
    rfl
  | varintEnc x =>
    rw [mnemonicLine, assemble, signedArg_signedLiteral (by decide) (of_decide_eq_true h)]
    rfl
  | varlongEnc x =>
    rw [mnemonicLine, assemble, ← lowBits_64 x, signedArg_signedLiteral (by decide) x.isLt, lowBits_64]
    rfl
  | boolDec x =>
    obtain rfl : x = 0#64 := BitVec.eq_of_toNat_eq (of_decide_eq_true h)
    rfl
  | byteDec x =>
    obtain rfl : x = 0#64 := BitVec.eq_of_toNat_eq (of_decide_eq_true h)
    rfl
  | varintDec x =>
    obtain rfl : x = 0#64 := BitVec.eq_of_toNat_eq (of_decide_eq_true h)
    rfl
  | varlongDec x =>
    obtain rfl : x = 0#64 := BitVec.eq_of_toNat_eq (of_decide_eq_true h)
    rfl

/-- The raw form of any command assembles to it (R88, R91). -/
theorem assemble_rawLine (c : Command) : assemble (rawLine c) = some c := by
  simp [rawLine, assemble, unsignedPattern, c.op.isLt, c.operand.isLt]

/-- The two forms the disassembler prints (R91). -/
theorem disassemble_cases (c : Command) :
    (∃ i, encode i = c ∧ i.canonical = true ∧ disassemble c = mnemonicLine i) ∨ disassemble c = rawLine c := by
  unfold disassemble
  obtain ⟨i, hd⟩ | ⟨e, hd⟩ := decode_ok_or_error c
  · cases hi : i.canonical
    · simp [hd, hi]
    · exact .inl ⟨i, decode_ok_iff.1 hd, hi, by simp [hd, hi]⟩
  · simp [hd]

theorem assemble_disassemble (c : Command) : assemble (disassemble c) = some c := by
  obtain ⟨i, rfl, hi, h⟩ | h := disassemble_cases c
  · rw [h, assemble_mnemonicLine hi]
  · rw [h, assemble_rawLine]

end Sys2Proof.Machine
end

section
/-! PROOFS. The text of a line (30_encoding.md R88, R91): what is printed of a number, a literal, an operand and a line
is read back as it, so the disassembler's text assembles to the command. -/

namespace Sys2Proof.Machine

/-! ### Digits -/

theorem digitValue_digitChar {b d : Nat} (hb : b ≤ 16) (hd : d < b) : digitValue b (digitChar d) = some d := by
  have h : ∀ b ≤ 16, ∀ d < b, digitValue b (digitChar d) = some d := by decide
  exact h b hb d hd

/-- A digit is none of the characters that mean something else in a literal (R89). -/
theorem digitChar_not_mem {d : Nat} (hd : d < 16) : digitChar d ∉ ['_', '-', 'x'] := by
  revert d; decide

/-- The number digits in base `b` spell after a part of value `acc`, most significant first. -/
def digitsValue (b acc : Nat) (ds : List Nat) : Nat := ds.foldl (fun a d => a * b + d) acc

section
variable {b : Nat}

theorem digits_lt (hb : 0 < b) (fuel least n : Nat) : ∀ d ∈ digits b fuel least n, d < b := by
  induction fuel generalizing least n with
  | zero => simp [digits]
  | succ fuel ih =>
    rw [digits]
    split
    · simp
    · intro d hd
      obtain hd | hd := List.mem_append.1 hd
      · exact ih _ _ d hd
      · exact List.mem_singleton.1 hd ▸ Nat.mod_lt n hb

theorem digits_ne_nil {least : Nat} (h : 0 < least) (fuel n : Nat) : digits b (fuel + 1) least n ≠ [] := by
  simp [digits, h.ne']

/-- The digits of a number spell it, unless there are more than `fuel` of them. -/
theorem digitsValue_digits {fuel n : Nat} (least : Nat) (hn : n < b ^ fuel) :
    digitsValue b 0 (digits b fuel least n) = n := by
  induction fuel generalizing least n with
  | zero => simpa [digits, digitsValue, eq_comm] using hn
  | succ fuel ih =>
    have hdiv : n / b < b ^ fuel := Nat.div_lt_of_lt_mul (by rwa [mul_comm, ← pow_succ])
    rw [digits]
    split
    next h => exact h.1.symm
    next =>
      have hinit := ih (least - 1) hdiv
      unfold digitsValue at hinit ⊢
      rw [List.foldl_append, hinit]
      exact Nat.div_add_mod' n b

theorem numberFrom_map_digitChar (hb : b ≤ 16) (acc : Nat) {ds : List Nat} (hds : ∀ d ∈ ds, d < b) :
    numberFrom b acc (ds.map digitChar) = some (digitsValue b acc ds) := by
  induction ds generalizing acc with
  | nil => rfl
  | cons d ds ih =>
    obtain ⟨hd, hds⟩ := List.forall_mem_cons.1 hds
    have hscore : digitChar d ≠ '_' := fun h => digitChar_not_mem (hd.trans_le hb) (by simp [h])
    rw [List.map_cons, numberFrom, if_neg hscore, digitValue_digitChar hb hd, Option.bind_some, ih _ hds]
    rfl

/-- A number is read back from its printed digits. -/
theorem number_digits (hb : 0 < b) (hb16 : b ≤ 16) {fuel least n : Nat} (hleast : 0 < least)
    (hn : n < b ^ (fuel + 1)) : number b ((digits b (fuel + 1) least n).map digitChar) = some n := by
  have hlt := digits_lt hb (fuel + 1) least n
  have hval := digitsValue_digits least hn
  cases hds : digits b (fuel + 1) least n with
  | nil => exact absurd hds (digits_ne_nil hleast fuel n)
  | cons d ds =>
    rw [hds] at hlt hval
    obtain ⟨hd, hds⟩ := List.forall_mem_cons.1 hlt
    rw [List.map_cons, number, digitValue_digitChar hb16 hd, Option.bind_some, numberFrom_map_digitChar hb16 d hds,
      ← hval]
    simp [digitsValue]

end

/-! ### Literals and operands -/

/-- A literal whose digits fit in what `Literal.text` prints: 20 decimal or 16 hexadecimal ones. -/
def Literal.Fits : Literal → Prop
  | .dec _ n => n < 10 ^ 20
  | .hex n => n < 16 ^ 16

/-- Decimal digits by themselves spell a non-negative literal (R89). -/
theorem literalOf_map_digitChar {ds : List Nat} (hds : ∀ d ∈ ds, d < 10) :
    literalOf (ds.map digitChar) = (number 10 (ds.map digitChar)).map (.dec false) := by
  have hnot : ∀ c ∈ ['-', 'x'], c ∉ ds.map digitChar := by
    intro c hc hmem
    obtain ⟨d, hd, rfl⟩ := List.mem_map.1 hmem
    have := digitChar_not_mem (d := d) (by have := hds d hd; omega)
    simp_all
  unfold literalOf
  split
  next h => exact absurd (h ▸ by simp) (hnot 'x' (by simp))
  next h => exact absurd (h ▸ by simp) (hnot '-' (by simp))
  next => rfl

theorem literalOf_text {least : Nat} {l : Literal} (hleast : 0 < least) (h : l.Fits) :
    literalOf (l.text least) = some l := by
  cases l with
  | dec negative n =>
    have hnum : number 10 ((digits 10 20 1 n).map digitChar) = some n :=
      number_digits (by decide) (by decide) (by decide) h
    cases negative with
    | false => exact (literalOf_map_digitChar (digits_lt (by decide) _ _ _)).trans (by rw [hnum]; rfl)
    | true => exact congrArg (Option.map (Literal.dec true)) hnum
  | hex n => exact congrArg (Option.map Literal.hex) (number_digits (by decide) (by decide) hleast h)

/-- An operand whose literal, if it is one, fits. -/
def Arg.Fits : Arg → Prop
  | .lit l => l.Fits
  | .tru => True
  | .fls => True

/-- A word that spells a literal is that literal as an operand: neither `true` nor `false` spells one (R88). -/
theorem argOf_of_literalOf {t : List Char} {l : Literal} (h : literalOf t = some l) : argOf t = some (.lit l) := by
  have htru : t ≠ "true".toList := fun ht => by
    rw [ht, show literalOf "true".toList = none by decide] at h
    cases h
  have hfls : t ≠ "false".toList := fun ht => by
    rw [ht, show literalOf "false".toList = none by decide] at h
    cases h
  rw [argOf, if_neg htru, if_neg hfls, h, Option.map_some]

theorem argOf_text {a : Arg} (h : a.Fits) : argOf a.text = some a := by
  cases a with
  | tru => rfl
  | fls => rfl
  | lit l => exact argOf_of_literalOf (literalOf_text (by decide) h)

/-! ### Words -/

/-- The character neither ends a word nor starts a comment (R88). -/
def plainChar (c : Char) : Bool := c ∉ [' ', '\t', ',', ';']

theorem plainChar_iff (c : Char) : plainChar c = true ↔ c ≠ ' ' ∧ c ≠ '\t' ∧ c ≠ ',' ∧ c ≠ ';' := by
  simp [plainChar]

/-- A non-empty run of plain characters. -/
def IsWord (t : List Char) : Prop := t ≠ [] ∧ t.all plainChar = true

/-- Plain characters are gathered into the word being read. -/
theorem wordsFrom_append {t : List Char} (ht : t.all plainChar = true) (word rest : List Char) :
    wordsFrom word (t ++ rest) = wordsFrom (word ++ t) rest := by
  induction t generalizing word with
  | nil => simp
  | cons c t ih =>
    obtain ⟨hc, ht⟩ := Bool.and_eq_true_iff.1 (List.all_cons ▸ ht)
    obtain ⟨hblank, htab, hcomma, -⟩ := (plainChar_iff c).1 hc
    have hsep : ¬ (c = ' ' ∨ c = '\t' ∨ c = ',') := by simp [hblank, htab, hcomma]
    rw [List.cons_append, wordsFrom, if_neg hsep, ih ht, List.append_assoc, List.singleton_append]

section
variable {t : List Char}

theorem wordsFrom_word (h : IsWord t) : wordsFrom [] t = [t] := by
  have := wordsFrom_append h.2 [] []
  simpa [wordsFrom, h.1] using this

theorem wordsFrom_word_blank (h : IsWord t) (rest : List Char) :
    wordsFrom [] (t ++ ' ' :: rest) = t :: wordsFrom [] rest := by
  rw [wordsFrom_append h.2]
  simp [wordsFrom, h.1]

theorem wordsFrom_word_comma (h : IsWord t) (rest : List Char) :
    wordsFrom [] (t ++ ',' :: rest) = t :: [','] :: wordsFrom [] rest := by
  rw [wordsFrom_append h.2]
  simp [wordsFrom, h.1]

theorem IsWord.no_semicolon (h : IsWord t) : ∀ c ∈ t, c ≠ ';' := by
  intro c hc
  obtain ⟨-, -, -, hsemicolon⟩ := (plainChar_iff c).1 (List.all_eq_true.1 h.2 c hc)
  exact hsemicolon

end

theorem wordsFrom_blank (rest : List Char) : wordsFrom [] (' ' :: rest) = wordsFrom [] rest := by simp [wordsFrom]

theorem isWord_mnemonic (m : Mnemonic) : IsWord m.text := by
  cases m <;> exact ⟨by decide, by decide⟩

theorem isWord_append {t u : List Char} (ht : t.all plainChar = true) (hu : IsWord u) : IsWord (t ++ u) :=
  ⟨by simp [hu.1], by rw [List.all_append, ht, hu.2, Bool.and_self]⟩

theorem plainChar_digitChar {d : Nat} (hd : d < 16) : plainChar (digitChar d) = true := by
  revert d; decide

theorem isWord_digits {b least : Nat} (hb : 0 < b) (hb16 : b ≤ 16) (hleast : 0 < least) (fuel n : Nat) :
    IsWord ((digits b (fuel + 1) least n).map digitChar) := by
  refine ⟨by simpa using digits_ne_nil hleast fuel n, List.all_eq_true.2 fun c hc => ?_⟩
  obtain ⟨d, hd, rfl⟩ := List.mem_map.1 hc
  exact plainChar_digitChar ((digits_lt hb _ _ _ d hd).trans_le hb16)

theorem isWord_literal {least : Nat} (hleast : 0 < least) (l : Literal) : IsWord (l.text least) := by
  cases l with
  | dec negative n =>
    have hdigits : IsWord ((digits 10 20 1 n).map digitChar) :=
      isWord_digits (by decide) (by decide) (by decide) 19 n
    exact isWord_append (by cases negative <;> decide) hdigits
  | hex n =>
    have hdigits : IsWord ((digits 16 16 least n).map digitChar) :=
      isWord_digits (by decide) (by decide) hleast 15 n
    exact isWord_append (by decide) hdigits

theorem isWord_arg (a : Arg) : IsWord a.text := by
  cases a with
  | tru => exact ⟨by decide, by decide⟩
  | fls => exact ⟨by decide, by decide⟩
  | lit l => exact isWord_literal (by decide) l

/-! ### Lines -/

/-- The words of a line (R88). -/
def Line.words : Line → List (List Char)
  | .mnem m none => [m.text]
  | .mnem m (some a) => [m.text, a.text]
  | .cmd o x => [".cmd".toList, o.text 2, [','], x.text 16]

/-- A line whose literals fit. -/
def Line.Fits : Line → Prop
  | .mnem _ none => True
  | .mnem _ (some a) => a.Fits
  | .cmd o x => o.Fits ∧ x.Fits

theorem isWord_cmd : IsWord ".cmd".toList := ⟨by decide, by decide⟩

theorem text_cmd (o x : Literal) :
    (Line.cmd o x).text = ".cmd".toList ++ ' ' :: (o.text 2 ++ ',' :: ' ' :: x.text 16) := by
  have htext : (Line.cmd o x).text = ".cmd ".toList ++ o.text 2 ++ [',', ' '] ++ x.text 16 := rfl
  have hcmd : ".cmd ".toList = ".cmd".toList ++ [' '] := by decide
  rw [htext, hcmd]
  simp only [List.append_assoc, List.cons_append, List.nil_append]

theorem text_mnem_arg (m : Mnemonic) (a : Arg) : (Line.mnem m (some a)).text = m.text ++ ' ' :: a.text :=
  List.append_assoc m.text [' '] a.text

theorem wordsFrom_text (l : Line) : wordsFrom [] l.text = l.words := by
  match l with
  | .mnem m none => exact wordsFrom_word (isWord_mnemonic m)
  | .mnem m (some a) =>
    rw [text_mnem_arg, wordsFrom_word_blank (isWord_mnemonic m), wordsFrom_word (isWord_arg a)]
    rfl
  | .cmd o x =>
    rw [text_cmd, wordsFrom_word_blank isWord_cmd, wordsFrom_word_comma (isWord_literal (by decide) o),
      wordsFrom_blank, wordsFrom_word (isWord_literal (by decide) x)]
    rfl

/-- No line's text has a comment. -/
theorem stripComment_text (l : Line) : stripComment l.text = l.text := by
  refine List.takeWhile_eq_self_iff.2 fun c hc => bne_iff_ne.2 ?_
  match l with
  | .mnem m none => exact (isWord_mnemonic m).no_semicolon c hc
  | .mnem m (some a) =>
    rw [text_mnem_arg, List.mem_append, List.mem_cons] at hc
    obtain hc | rfl | hc := hc
    · exact (isWord_mnemonic m).no_semicolon c hc
    · decide
    · exact (isWord_arg a).no_semicolon c hc
  | .cmd o x =>
    rw [text_cmd, List.mem_append, List.mem_cons, List.mem_append, List.mem_cons, List.mem_cons] at hc
    obtain hc | rfl | hc | rfl | rfl | hc := hc
    · exact isWord_cmd.no_semicolon c hc
    · decide
    · exact (isWord_literal (by decide) o).no_semicolon c hc
    · decide
    · decide
    · exact (isWord_literal (by decide) x).no_semicolon c hc

theorem mnemonicOf_text (m : Mnemonic) : mnemonicOf m.text = some m := by cases m <;> decide

/-- A line whose literals fit is read back from its words. -/
theorem lineOfWords_words {l : Line} (h : l.Fits) : lineOfWords l.words = some l := by
  match l, h with
  | .mnem m none, _ => simp [Line.words, lineOfWords, mnemonicOf_text]
  | .mnem m (some a), h => simp [Line.words, lineOfWords, mnemonicOf_text, argOf_text h]
  | .cmd o x, h =>
    rw [Line.words, lineOfWords, if_pos ⟨rfl, rfl⟩, literalOf_text (by decide) h.1, Option.bind_some,
      literalOf_text (by decide) h.2, Option.map_some]

/-- Assembling the text of a line whose literals fit is assembling the line (R88 to R90). -/
theorem assembleText_text {l : Line} (h : l.Fits) : assembleText l.text = (assemble l).map fun c => [c] := by
  have hl := lineOfWords_words h
  unfold assembleText
  rw [stripComment_text, wordsFrom_text]
  split
  next hw => simp [hw, lineOfWords] at hl
  next => rw [hl, Option.bind_some]

/-! ### What the disassembler prints -/

theorem signedLiteral_fits {w : Nat} (hw : w ≤ 64) (p : BitVec w) : (signedLiteral p).Fits := by
  have hp := p.isLt
  have hpow : 2 ^ w ≤ 2 ^ 64 := Nat.pow_le_pow_right (by decide) hw
  unfold signedLiteral
  split <;> simp only [Literal.Fits] <;> omega

theorem mnemonicLine_fits (i : Instr) : (mnemonicLine i).Fits := by
  cases i with
  | boolEnc x =>
    rw [mnemonicLine]
    cases x.getLsbD 0 <;> trivial
  | byteEnc x => exact signedLiteral_fits (by decide) _
  | varintEnc x => exact signedLiteral_fits (by decide) _
  | varlongEnc x => exact signedLiteral_fits (by decide) _
  | boolDec x => trivial
  | byteDec x => trivial
  | varintDec x => trivial
  | varlongDec x => trivial

theorem rawLine_fits (c : Command) : (rawLine c).Fits := ⟨c.op.isLt.trans (by decide), c.operand.isLt⟩

theorem disassemble_fits (c : Command) : (disassemble c).Fits := by
  obtain ⟨i, -, -, h⟩ | h := disassemble_cases c
  · exact h ▸ mnemonicLine_fits i
  · exact h ▸ rawLine_fits c

/-- Settles O53: the line assembles back, and its text is read back as the line. -/
theorem disassemblyAssemblesBack : Obligations.DisassemblyAssemblesBack := by
  refine fun c => ⟨assemble_disassemble c, ?_⟩
  rw [disassembleText, assembleText_text (disassemble_fits c), assemble_disassemble]
  rfl

end Sys2Proof.Machine
end

section
/-! PROOFS. The shifter (40_shifter.md R100 to R109): EncStep and DecStep in arithmetic, and decoding as the inverse of
encoding. -/

namespace Sys2Proof.Machine

/-! ### Terminated sequences -/

theorem terminated_singleton {max : Nat} {b : Byte} (h : continuation b = false) : Terminated (max + 1) [b] :=
  ⟨[], b, rfl, by simp, h, by simp⟩

theorem Terminated.cons {max : Nat} {b : Byte} {bytes : List Byte} (hb : continuation b = true)
    (h : Terminated max bytes) : Terminated (max + 1) (b :: bytes) := by
  obtain ⟨init, last, rfl, hinit, hlast, hlen⟩ := h
  exact ⟨b :: init, last, rfl, by simpa [hb] using hinit, hlast, Nat.succ_le_succ hlen⟩

/-- A canonical encoding is a terminated sequence (R83, R85). -/
theorem terminated_canonicalBytes {max u : Nat} (hmax : 0 < max) (h : u < 2 ^ (7 * max)) :
    Terminated max (canonicalBytes max u) := by
  induction max generalizing u with
  | zero => omega
  | succ max ih =>
    obtain hu | hu := lt_or_ge u 128
    · rw [canonicalBytes_of_lt max hu]
      exact terminated_singleton (continuation_wireByte _ _)
    · have hpos := max_pos_of_ge hu h
      rw [canonicalBytes_of_ge hpos hu]
      exact (ih hpos (lt_two_pow_groups_succ.1 h)).cons (continuation_wireByte _ _)

/-- The groups of a canonical encoding add up to the value it encodes (R81). -/
theorem groupSum_canonicalBytes {max u : Nat} (h : u < 2 ^ (7 * max)) : groupSum (canonicalBytes max u) = u := by
  induction max generalizing u with
  | zero => simpa [canonicalBytes, groupSum, eq_comm] using h
  | succ max ih =>
    obtain hu | hu := lt_or_ge u 128
    · simp [canonicalBytes_of_lt max hu, groupSum, Nat.mod_eq_of_lt hu]
    · rw [canonicalBytes_of_ge (max_pos_of_ge hu h) hu, groupSum, group_wireByte, BitVec.toNat_ofNat,
        ih (lt_two_pow_groups_succ.1 h)]
      exact Nat.mod_add_div u 128

/-! ### The accumulator -/

/-- What DecStep adds at index `k`, together with an accumulator below bit 7k, stays below bit 7(k+1) (R106). -/
theorem add_group_lt {acc k : Nat} (b : Byte) (hacc : acc < 2 ^ (7 * k)) :
    acc + b.toNat % 128 * 2 ^ (7 * k) < 2 ^ (7 * (k + 1)) := by
  have hgroup : b.toNat % 128 * 2 ^ (7 * k) ≤ 127 * 2 ^ (7 * k) := Nat.mul_le_mul_right _ (by omega)
  rw [two_pow_groups_succ]
  omega

/-- Folding DecStep over bytes adds the value of their groups above the accumulator, modulo 2^W (R104, R106, R107). -/
theorem decFold_toNat {w k : Nat} {acc : BitVec w} {bytes : List Byte} (hw : 7 ≤ w) (hacc : acc.toNat < 2 ^ (7 * k)) :
    (decFold acc k bytes).toNat = (acc.toNat + groupSum bytes * 2 ^ (7 * k)) % 2 ^ w := by
  induction bytes generalizing acc k with
  | nil => simp [decFold, groupSum, Nat.mod_eq_of_lt acc.isLt]
  | cons b bytes ih =>
    have hstep := decStep_toNat b hw hacc
    have hlt : (decStep acc k b).toNat < 2 ^ (7 * (k + 1)) :=
      hstep ▸ (Nat.mod_le _ _).trans_lt (add_group_lt b hacc)
    rw [decFold, ih hlt, hstep, Nat.mod_add_mod, groupSum, group_toNat, two_pow_groups_succ]
    congr 1
    ring

/-- A value of `w` bits fits in MAX groups that cover the width (R83). -/
theorem toNat_lt_two_pow_groups {w max : Nat} (hmax : w ≤ 7 * max) (u : BitVec w) : u.toNat < 2 ^ (7 * max) :=
  u.isLt.trans_le (Nat.pow_le_pow_right (by decide) hmax)

theorem terminated_encBytes {w max : Nat} (hpos : 0 < max) (hmax : w ≤ 7 * max) (u : BitVec w) :
    Terminated max (encBytes max u) := by
  have hu := toNat_lt_two_pow_groups hmax u
  rw [encBytes_eq_canonicalBytes hu]
  exact terminated_canonicalBytes hpos hu

/-- Folding DecStep over the bytes of EncStep gives the value back, at every width that MAX groups cover (R109). -/
theorem decFold_encBytes {w max : Nat} (hw : 7 ≤ w) (hmax : w ≤ 7 * max) (u : BitVec w) :
    decFold 0#w 0 (encBytes max u) = u := by
  have hu := toNat_lt_two_pow_groups hmax u
  apply BitVec.eq_of_toNat_eq
  rw [encBytes_eq_canonicalBytes hu, decFold_toNat hw (by simp), groupSum_canonicalBytes hu]
  simp

/-- Settles O30: 5 groups cover 32 bits, and 10 groups cover 64. -/
theorem shifterRoundTrip : Obligations.ShifterRoundTrip :=
  ⟨fun u => ⟨terminated_encBytes (by decide) (by decide) u, decFold_encBytes (by decide) (by decide) u⟩,
    fun u => ⟨terminated_encBytes (by decide) (by decide) u, decFold_encBytes (by decide) (by decide) u⟩⟩

/-- Settles O28: the sum stays below 2^W, so nothing of it is lost. -/
theorem decStepAddsADisjointGroup : Obligations.DecStepAddsADisjointGroup := by
  intro w k acc b hw hacc
  rw [decStep_toNat b (by omega) hacc]
  exact Nat.mod_eq_of_lt ((add_group_lt b hacc).trans_le (Nat.pow_le_pow_right (by decide) hw))

/-- When only `n` bits of the group fit, DecStep puts the lowest `n` bits of the byte above the accumulator (R107). -/
theorem decStep_toNat_of_excess {w k n : Nat} {acc : BitVec w} (b : Byte) (hw : 7 ≤ w) (hn : n ≤ 7)
    (hsum : w = 7 * k + n) (hacc : acc.toNat < 2 ^ (7 * k)) :
    (decStep acc k b).toNat = (b.extractLsb' 0 n ++ acc.extractLsb' 0 (7 * k)).toNat := by
  have hgroup : b.toNat % 128 % 2 ^ n = b.toNat % 2 ^ n := Nat.mod_mod_of_dvd _ (pow_dvd_pow 2 hn)
  have happend := Nat.shiftLeft_add_eq_or_of_lt hacc (b.toNat % 2 ^ n)
  have hkept : (acc.toNat + b.toNat % 128 * 2 ^ (7 * k)) % 2 ^ (7 * k + n) =
      acc.toNat + 2 ^ (7 * k) * (b.toNat % 2 ^ n) := by
    rw [pow_add, Nat.mod_mul, Nat.add_mul_mod_self_right, Nat.add_mul_div_right _ _ (Nat.two_pow_pos _),
      Nat.mod_eq_of_lt hacc, Nat.div_eq_of_lt hacc, zero_add, hgroup]
  calc (decStep acc k b).toNat = acc.toNat + 2 ^ (7 * k) * (b.toNat % 2 ^ n) := by
        rw [decStep_toNat b hw hacc, ← hkept, ← hsum]
    _ = (b.extractLsb' 0 n ++ acc.extractLsb' 0 (7 * k)).toNat := by
        simp only [BitVec.toNat_append, BitVec.extractLsb'_toNat, Nat.shiftRight_zero]
        rw [Nat.mod_eq_of_lt hacc, ← happend, Nat.shiftLeft_eq, Nat.add_comm, Nat.mul_comm]

/-- Settles O29: 4 bits fit at index 4 of 32, and 1 bit at index 9 of 64. -/
theorem decStepAtTheLastIndexLosesTheExcess : Obligations.DecStepAtTheLastIndexLosesTheExcess :=
  ⟨fun _ b h => BitVec.eq_of_toNat_eq (decStep_toNat_of_excess b (by decide) (by decide) rfl h),
    fun _ b h => BitVec.eq_of_toNat_eq (decStep_toNat_of_excess b (by decide) (by decide) rfl h)⟩

/-! ### The remaining value -/

/-- The last EncStep: the byte is the value, and nothing remains (R102). -/
theorem encStep_of_lt {w : Nat} {r : BitVec w} (h : r.toNat < 128) :
    encStep r = ⟨BitVec.ofNat 8 r.toNat, 0#w, true⟩ := by
  have hbyte : (encStep r).byte = BitVec.ofNat 8 r.toNat := by
    apply BitVec.eq_of_toNat_eq
    rw [encStep_byte, decide_eq_false (by omega), wireByte_toNat, BitVec.toNat_ofNat, BitVec.toNat_ofNat,
      Nat.mod_eq_of_lt h, Nat.mod_eq_of_lt (h.trans (by decide))]
    exact Nat.zero_add _
  have hrem : (encStep r).rem = 0#w := by
    apply BitVec.eq_of_toNat_eq
    rw [encStep_rem_toNat, Nat.div_eq_of_lt h, BitVec.toNat_ofNat, Nat.zero_mod]
  have hlast : (encStep r).last = true := by rw [encStep_last, decide_eq_true h]
  rw [← hbyte, ← hrem, ← hlast]

/-- An EncStep that is not the last: the byte has the continuation bit above the low 7 bits of the value (R102). -/
theorem encStep_of_ge {w : Nat} {r : BitVec w} (h : 128 ≤ r.toNat) :
    (encStep r).last = false ∧ (encStep r).byte.getLsbD 7 = true ∧
      (r.toNat % 128 = 0 → (encStep r).byte = 0x80#8) := by
  have hbyte : (encStep r).byte = wireByte true (BitVec.ofNat 7 r.toNat) := by
    rw [encStep_byte, decide_eq_true h]
  refine ⟨by rw [encStep_last, decide_eq_false (by omega)], ?_, fun hz => BitVec.eq_of_toNat_eq ?_⟩
  · rw [hbyte]
    exact continuation_wireByte _ _
  · rw [hbyte, wireByte_toNat, BitVec.toNat_ofNat, hz]
    rfl

/-- Settles O26: the two cases at each width. -/
theorem encStepCornerCases : Obligations.EncStepCornerCases :=
  ⟨fun _ => ⟨fun h => encStep_of_lt (Nat.lt_succ_of_le h), encStep_of_ge⟩,
    fun _ => ⟨fun h => encStep_of_lt (Nat.lt_succ_of_le h), encStep_of_ge⟩, rfl, rfl⟩

/-- Each EncStep shifts 7 bits out (R103). -/
theorem iterate_encStep_rem_toNat {w : Nat} (u : BitVec w) (k : Nat) :
    ((fun r => (encStep r).rem)^[k] u).toNat = u.toNat / 2 ^ (7 * k) := by
  induction k with
  | zero => simp
  | succ k ih =>
    rw [Function.iterate_succ_apply', encStep_rem_toNat, ih, two_pow_groups_succ, Nat.div_div_eq_div_mul,
      Nat.mul_comm]

/-- Nothing remains after as many steps as there are groups in the width (R103). -/
theorem iterate_encStep_rem_eq_zero {w k : Nat} (u : BitVec w) (hk : w ≤ 7 * k) :
    (fun r => (encStep r).rem)^[k] u = 0#w := by
  apply BitVec.eq_of_toNat_eq
  rw [iterate_encStep_rem_toNat, BitVec.toNat_ofNat, Nat.zero_mod]
  exact Nat.div_eq_of_lt (toNat_lt_two_pow_groups hk u)

/-- The byte after `k` steps, when at most 7 bits are left, holds no more than those bits (R103). -/
theorem encStep_byte_lt_of_iterate {w k n : Nat} (u : BitVec w) (hn : n ≤ 7) (hsum : w = 7 * k + n) :
    (encStep ((fun r => (encStep r).rem)^[k] u)).byte.toNat < 2 ^ n := by
  have hlt : ((fun r => (encStep r).rem)^[k] u).toNat < 2 ^ n := by
    rw [iterate_encStep_rem_toNat]
    exact Nat.div_lt_of_lt_mul (by rw [← pow_add, ← hsum]; exact u.isLt)
  have hpow : 2 ^ n ≤ 2 ^ 7 := Nat.pow_le_pow_right (by decide) hn
  rw [encStep_of_lt (hlt.trans_le hpow), BitVec.toNat_ofNat]
  exact (Nat.mod_le _ _).trans_lt hlt

/-- Settles O27: 4 bits are left after 4 steps at width 32, and 1 bit after 9 steps at width 64. -/
theorem remainingValueReachesZero : Obligations.RemainingValueReachesZero :=
  ⟨iterate_encStep_rem_toNat, iterate_encStep_rem_toNat,
    fun u => ⟨iterate_encStep_rem_eq_zero u (by decide),
      Nat.le_of_lt_succ (encStep_byte_lt_of_iterate (k := 4) (n := 4) u (by decide) rfl)⟩,
    fun u => ⟨iterate_encStep_rem_eq_zero u (by decide),
      Nat.le_of_lt_succ (encStep_byte_lt_of_iterate (k := 9) (n := 1) u (by decide) rfl)⟩⟩

end Sys2Proof.Machine
end

section
/-! PROOFS. The VarInt/VarLong encoder (41_varint_encode.md R120 to R125): one transfer step in arithmetic, a whole
encode by recursion on the value without its lowest group, and the frame of the four encode commands. -/

namespace Sys2Proof.Machine

open Sys2Proof.Config (IoCause)

/-! ### One transfer step -/

theorem wireByte_false_ofNat {u : Nat} (h : u < 128) : wireByte false (BitVec.ofNat 7 u) = BitVec.ofNat 8 u := by
  apply BitVec.eq_of_toNat_eq
  simp only [wireByte_toNat, BitVec.toNat_ofNat, Bool.false_eq_true, if_false]
  omega

theorem wireByte_true_ofNat (u : Nat) : wireByte true (BitVec.ofNat 7 u) = BitVec.ofNat 8 (128 + u % 128) := by
  apply BitVec.eq_of_toNat_eq
  simp only [wireByte_toNat, BitVec.toNat_ofNat, if_true]
  omega

/-- An EncStep that is not the last, with the byte and the remaining value as numbers (R101). -/
theorem zext64_encStep_of_ge {w : Nat} {r : BitVec w} (h : 128 ≤ r.toNat) :
    (encStep r).byte = BitVec.ofNat 8 (128 + r.toNat % 128) ∧
      zext64 (encStep r).rem = BitVec.ofNat 64 (r.toNat / 128) := by
  refine ⟨by rw [encStep_byte, decide_eq_true h, wireByte_true_ofNat], BitVec.eq_of_toNat_eq ?_⟩
  rw [zext64, BitVec.toNat_setWidth, encStep_rem_toNat, BitVec.toNat_ofNat]

theorem zext64_lowBits_eq_ofNat (w : Nat) (x : Word64) : zext64 (lowBits w x) = BitVec.ofNat 64 (x.toNat % 2 ^ w) := by
  apply BitVec.eq_of_toNat_eq
  rw [zext64, BitVec.toNat_setWidth, lowBits_toNat, BitVec.toNat_ofNat]

section
variable {w u : Nat} {rest : List SnkAnswer} {s : State}

/-- Below 128 EncodeVarStep writes the value as its one byte and completes (R120). -/
theorem encodeVarStep_of_lt (hs : s.snkAnswers = .ack :: rest) (hr : s.rem.toNat % 2 ^ w = u) (hu : u < 128) :
    encodeVarStep w s = .next (complete { countUp s with
      rem := 0#64, snkAnswers := rest, acked := s.acked ++ [BitVec.ofNat 8 u] }) := by
  rw [← lowBits_toNat] at hr
  subst hr
  have hzero : zext64 0#w = 0#64 := by simp [zext64]
  rw [encodeVarStep, snkWrite_of_ack hs, encStep_of_lt hu]
  simp only [hzero]
  rfl

/-- At 128 or more EncodeVarStep writes the low 7 bits with the continuation bit, and goes on with the rest (R120). -/
theorem encodeVarStep_of_ge (hs : s.snkAnswers = .ack :: rest) (hr : s.rem.toNat % 2 ^ w = u) (hu : 128 ≤ u) :
    encodeVarStep w s = .next { countUp s with
      rem := BitVec.ofNat 64 (u / 128), snkAnswers := rest
      acked := s.acked ++ [BitVec.ofNat 8 (128 + u % 128)] } := by
  rw [← lowBits_toNat] at hr
  subst hr
  obtain ⟨hbyte, hrem⟩ := zext64_encStep_of_ge hu
  obtain ⟨hlast, -⟩ := encStep_of_ge hu
  rw [encodeVarStep, snkWrite_of_ack hs]
  simp only [hlast, hbyte, hrem]
  rfl

/-- A failed write of EncodeVarStep is an Io abort (R120, R182). -/
theorem encodeVarStep_of_fail {c : IoCause} (hs : s.snkAnswers = .fail c :: rest) :
    encodeVarStep w s = .next (raise (.io c) { s with snkAnswers := rest }) := by
  rw [encodeVarStep, snkWrite_of_fail hs]

end

/-- Settles O20, at width 32. -/
theorem varintEncStep : Obligations.VarintEncStep := by
  refine fun x s => ⟨fun hf => ?_, fun later hf hs hu => ?_, fun later hf hs hu => ?_, fun c later hf hs => ?_⟩
  · rw [exec_of_idle hf, ← zext64_lowBits_eq_ofNat]
    rfl
  · rw [exec_of_run hf]
    exact encodeVarStep_of_lt hs rfl hu
  · have hmod : s.rem.toNat % 2 ^ 32 % 128 = s.rem.toNat % 128 := Nat.mod_mod_of_dvd _ (by decide)
    rw [exec_of_run hf, ← hmod]
    exact encodeVarStep_of_ge hs rfl hu
  · rw [exec_of_run hf]
    exact encodeVarStep_of_fail hs

/-- Settles O21, at width 64. -/
theorem varlongEncStep : Obligations.VarlongEncStep := by
  refine fun x s => ⟨fun hf => ?_, fun later hf hs hu => ?_, fun later hf hs hu => ?_, fun c later hf hs => ?_⟩
  · rw [exec_of_idle hf]
    rfl
  · rw [exec_of_run hf]
    exact encodeVarStep_of_lt hs (Nat.mod_eq_of_lt s.rem.isLt) hu
  · rw [exec_of_run hf]
    exact encodeVarStep_of_ge hs (Nat.mod_eq_of_lt s.rem.isLt) hu
  · rw [exec_of_run hf]
    exact encodeVarStep_of_fail hs

/-! ### Runs without a reset -/

section
variable {n : Nat} {s t : State}

theorem core_run_succ (h : step s = .next t) (n : Nat) : core.run (n + 1) s = core.run n t := by
  have hcore : core.step s = .next t := h
  simp only [Host.Core.run, hcore]

theorem NotReset.first (h : NotReset (n + 1) s) : NotReset 1 s := by
  intro r hr
  refine h r ?_
  cases hi : s.resetInput <;> simp_all

theorem NotReset.later (h : NotReset (n + 1) s) (ht : t.resetInput = s.resetInput.tail) : NotReset n t := by
  intro r hr
  refine h r ?_
  rw [ht] at hr
  cases hi : s.resetInput <;> simp_all

end

/-! ### A whole encode -/

/-- A VarInt or VarLong encode of width `w` is in progress, and `u` is what remains of its value (R36). -/
structure Encoding (w u : Nat) (s : State) : Prop where
  fsm : s.fsm = .run
  op : ∃ max, IsVarEnc s.op w max
  rem : s.rem = BitVec.ofNat 64 u
  fits : u < 2 ^ w

/-- `s` after one step per byte of `bytes`, each acknowledged, with the value `u` remaining (R120). -/
def afterWrites (bytes : List Byte) (u : Nat) (rest : List SnkAnswer) (s : State) : State :=
  { s with
    status := { s.status with count := s.status.count + BitVec.ofNat 4 bytes.length }
    rem := BitVec.ofNat 64 u
    snkAnswers := rest
    resetInput := s.resetInput.drop bytes.length
    acked := s.acked ++ bytes }

section
variable {w m u k : Nat} {b : Byte} {rest : List SnkAnswer} {s : State}

theorem afterWrites_resetInput_singleton : (afterWrites [b] u rest s).resetInput = s.resetInput.tail := List.drop_one

/-- The first byte and then the others are all the bytes. -/
theorem afterWrites_afterWrites (bytes : List Byte) (v : Nat) (later : List SnkAnswer) :
    afterWrites bytes v later (afterWrites [b] u rest s) = afterWrites (b :: bytes) v later s := by
  simp [afterWrites, BitVec.add_assoc, ← BitVec.ofNat_add, Nat.add_comm]

theorem Encoding.toNat_rem_mod (h : Encoding w u s) : s.rem.toNat % 2 ^ w = u := by
  obtain ⟨max, hop⟩ := h.op
  have hw : w ≤ 64 := by obtain ⟨-, rfl, -⟩ | ⟨-, rfl, -⟩ := hop <;> decide
  rw [h.rem, BitVec.toNat_ofNat, Nat.mod_mod_of_dvd _ (pow_dvd_pow 2 hw), Nat.mod_eq_of_lt h.fits]

/-- An encode that goes on has one group less to write. -/
theorem Encoding.next (h : Encoding w u s) (bytes : List Byte) :
    Encoding w (u / 128) (afterWrites bytes (u / 128) rest s) :=
  ⟨h.fsm, h.op, rfl, (Nat.div_le_self u 128).trans_lt h.fits⟩

/-- In an encode each step without a reset is an EncodeVarStep (R44). -/
theorem Encoding.step_eq (h : Encoding w u s) (hn : NotReset 1 s) :
    step s = encodeVarStep w { s with resetInput := s.resetInput.tail } := by
  rw [step_of_notReset hn]
  obtain ⟨max, ⟨hop, rfl, -⟩ | ⟨hop, rfl, -⟩⟩ := h.op
  · exact blockStep_of_run (i := .varintEnc 0#64) h.fsm hop
  · exact blockStep_of_run (i := .varlongEnc 0#64) h.fsm hop

/-- The step of an encode that writes the last byte (R120). -/
theorem Encoding.step_of_lt (h : Encoding w u s) (hu : u < 128) (hn : NotReset 1 s) (hs : s.snkAnswers = .ack :: rest) :
    step s = .next (complete (afterWrites [wireByte false (BitVec.ofNat 7 u)] 0 rest s)) := by
  have hstep := encodeVarStep_of_lt (s := { s with resetInput := s.resetInput.tail }) hs h.toNat_rem_mod hu
  rw [h.step_eq hn, hstep, ← wireByte_false_ofNat hu, ← List.drop_one]
  rfl

/-- The step of an encode that writes a byte and goes on (R120). -/
theorem Encoding.step_of_ge (h : Encoding w u s) (hu : 128 ≤ u) (hn : NotReset 1 s)
    (hs : s.snkAnswers = .ack :: rest) :
    step s = .next (afterWrites [wireByte true (BitVec.ofNat 7 u)] (u / 128) rest s) := by
  have hstep := encodeVarStep_of_ge (s := { s with resetInput := s.resetInput.tail }) hs h.toNat_rem_mod hu
  rw [h.step_eq hn, hstep, ← wireByte_true_ofNat, ← List.drop_one]
  rfl

/-- The step of an encode whose write fails (R120, R182). -/
theorem Encoding.step_of_fail {c : IoCause} (h : Encoding w u s) (hn : NotReset 1 s)
    (hs : s.snkAnswers = .fail c :: rest) :
    step s = .next (raise (.io c) { s with snkAnswers := rest, resetInput := s.resetInput.tail }) := by
  rw [h.step_eq hn]
  exact encodeVarStep_of_fail hs

/-- If every write is acknowledged, the encode in progress writes the canonical encoding of what remains, one byte per
step, and completes (R123). -/
theorem Encoding.run_of_acks (h : Encoding w u s) (hpos : 0 < m) (hm : u < 2 ^ (7 * m))
    (hs : s.snkAnswers = List.replicate (encLength m u) .ack ++ rest) (hn : NotReset (encLength m u) s) :
    core.run (encLength m u) s = .next (complete (afterWrites (canonicalBytes m u) 0 rest s)) := by
  induction m generalizing u s with
  | zero => omega
  | succ m ih =>
    obtain hu | hu := lt_or_ge u 128
    · rw [encLength_of_lt m hu] at hs hn ⊢
      rw [core_run_succ (h.step_of_lt hu hn hs), canonicalBytes_of_lt m hu]
      rfl
    · have hpos := max_pos_of_ge hu hm
      rw [encLength_of_ge m hu] at hs hn ⊢
      rw [List.replicate_succ, List.cons_append] at hs
      rw [core_run_succ (h.step_of_ge hu hn.first hs), canonicalBytes_of_ge hpos hu,
        ih (h.next _) hpos (lt_two_pow_groups_succ.1 hm) rfl (hn.later afterWrites_resetInput_singleton),
        afterWrites_afterWrites]

/-- If the write after `k` of them fails, the encode in progress has written the first `k` bytes of the canonical
encoding of what remains, and aborts (R125). -/
theorem Encoding.run_of_fail {c : IoCause} (h : Encoding w u s) (hk : k < encLength m u)
    (hs : s.snkAnswers = List.replicate k .ack ++ .fail c :: rest) (hn : NotReset (k + 1) s) :
    core.run (k + 1) s = .next (raise (.io c)
      { afterWrites ((canonicalBytes m u).take k) (u / 2 ^ (7 * k)) rest s with
        resetInput := s.resetInput.drop (k + 1) }) := by
  induction k generalizing m u s with
  | zero =>
    rw [core_run_succ (h.step_of_fail hn hs)]
    simp [Host.Core.run, afterWrites, ← h.rem]
  | succ k ih =>
    obtain _ | m := m
    · simp at hk
    obtain hu | hu := lt_or_ge u 128
    · rw [encLength_of_lt m hu] at hk
      omega
    · rw [encLength_of_ge m hu] at hk
      have hk' : k < encLength m (u / 128) := Nat.lt_of_succ_lt_succ hk
      have hm : 0 < m := (Nat.zero_lt_of_lt hk').trans_le (encLength_le_max m _)
      have hdiv : u / 128 / 2 ^ (7 * k) = u / 2 ^ (7 * (k + 1)) := by
        rw [Nat.div_div_eq_div_mul, two_pow_groups_succ]
      rw [List.replicate_succ, List.cons_append] at hs
      rw [core_run_succ (h.step_of_ge hu hn.first hs), canonicalBytes_of_ge hm hu,
        ih (h.next _) hk' rfl (hn.later afterWrites_resetInput_singleton), afterWrites_afterWrites, hdiv,
        afterWrites_resetInput_singleton, List.drop_tail, List.take_succ_cons]

end

/-! ### The two commands, from their acceptance -/

/-- `s` after an encode with opcode `op` is accepted at a step without a reset, `u` being its operand slice (R43). -/
def accepted (op : BitVec 8) (u : Nat) (later : List Command) (s : State) : State :=
  { s with
    status := { busy := true, done := false, valid := false, err := .none, count := 0#4 }
    op := op, rem := BitVec.ofNat 64 u, fsm := .run, offers := later, resetInput := s.resetInput.tail }

section
variable {op : BitVec 8} {w max u n k : Nat} {x : Word64} {later : List Command} {rest : List SnkAnswer} {s : State}

/-- In IDLE a step without a reset accepts the VarInt or VarLong encode offered first (R43, R121, R122). -/
theorem step_accepts_varEnc (hop : IsVarEnc op w max) (hf : s.fsm = .idle) (hn : NotReset 1 s)
    (ho : s.offers = ⟨op, x⟩ :: later) : step s = .next (accepted op (x.toNat % 2 ^ w) later s) := by
  obtain ⟨rfl, rfl, -⟩ | ⟨rfl, rfl, -⟩ := hop
  · rw [idleStepRunsTheOfferedCommand s _ later _ hn hf ho (decode_encode (.varintEnc x))]
    exact (varintEncStep x _).1 hf
  · rw [idleStepRunsTheOfferedCommand s _ later _ hn hf ho (decode_encode (.varlongEnc x)), accepted,
      Nat.mod_eq_of_lt x.isLt, BitVec.ofNat_toNat, BitVec.setWidth_eq]
    exact (varlongEncStep x _).1 hf

theorem encoding_accepted (hop : IsVarEnc op w max) (hu : u < 2 ^ w) : Encoding w u (accepted op u later s) :=
  ⟨rfl, ⟨max, hop⟩, rfl, hu⟩

/-- MAX groups hold every value of the width (R8, R83). -/
theorem IsVarEnc.max_groups (hop : IsVarEnc op w max) (hu : u < 2 ^ w) : 0 < max ∧ u < 2 ^ (7 * max) := by
  have hmax : 0 < max ∧ w ≤ 7 * max := by obtain ⟨-, rfl, rfl⟩ | ⟨-, rfl, rfl⟩ := hop <;> decide
  exact ⟨hmax.1, hu.trans_le (Nat.pow_le_pow_right (by decide) hmax.2)⟩

/-- An encode offered first, every write of which is acknowledged (R123). -/
theorem run_encode_of_acks (hop : IsVarEnc op w max) (hf : s.fsm = .idle)
    (hs : s.snkAnswers = List.replicate n .ack ++ rest) (hn : NotReset (n + 1) s) (hu : u = x.toNat % 2 ^ w)
    (hlen : n = encLength max u) (ho : s.offers = ⟨op, x⟩ :: later) :
    core.run (n + 1) s = .next { s with
      status := { busy := false, done := true, valid := false, err := .none, count := BitVec.ofNat 4 n }
      fsm := .idle, op := op, rem := 0#64, offers := later, snkAnswers := rest
      resetInput := s.resetInput.drop (n + 1), acked := s.acked ++ canonicalBytes max u } := by
  have hlt : u < 2 ^ w := hu ▸ Nat.mod_lt _ (Nat.two_pow_pos w)
  obtain ⟨hpos, hfit⟩ := hop.max_groups hlt
  subst hlen
  rw [core_run_succ (step_accepts_varEnc hop hf hn.first ho), ← hu,
    (encoding_accepted hop hlt).run_of_acks hpos hfit hs (hn.later rfl)]
  simp [complete, Status.complete, afterWrites, accepted]

/-- An encode offered first, the write of which after `k` acknowledged ones fails (R125). -/
theorem run_encode_of_fail {c : IoCause} (hop : IsVarEnc op w max) (hf : s.fsm = .idle)
    (hs : s.snkAnswers = List.replicate k .ack ++ .fail c :: rest) (hn : NotReset (k + 2) s)
    (hu : u = x.toNat % 2 ^ w) (hk : k < encLength max u) (ho : s.offers = ⟨op, x⟩ :: later) :
    core.run (k + 2) s = .next { s with
      status := { busy := false, done := true, valid := false, err := .io, count := BitVec.ofNat 4 k }
      iocause := c, fsm := .idle, op := op, rem := BitVec.ofNat 64 (u / 2 ^ (7 * k)), offers := later
      snkAnswers := rest, resetInput := s.resetInput.drop (k + 2)
      acked := s.acked ++ (canonicalBytes max u).take k } := by
  have hlt : u < 2 ^ w := hu ▸ Nat.mod_lt _ (Nat.two_pow_pos w)
  rw [core_run_succ (step_accepts_varEnc hop hf hn.first ho), ← hu,
    (encoding_accepted hop hlt).run_of_fail hk hs (hn.later rfl)]
  simp [raise, Status.abort, afterWrites, accepted, Nat.min_eq_left hk.le]

end

/-- Settles O33, at widths 32 and 64. -/
theorem encodeWritesTheCanonicalEncoding : Obligations.EncodeWritesTheCanonicalEncoding := by
  refine fun s x later snk u n hf hs hn => ⟨run_encode_of_acks (.inl ⟨rfl, rfl, rfl⟩) hf hs hn, fun hu => ?_⟩
  exact run_encode_of_acks (.inr ⟨rfl, rfl, rfl⟩) hf hs hn (hu.trans (Nat.mod_eq_of_lt x.isLt).symm)

/-- Settles O34, at widths 32 and 64. -/
theorem encodeFailingAtWriteK : Obligations.EncodeFailingAtWriteK := by
  refine fun s x later snk c u k hf hs hn => ⟨run_encode_of_fail (.inl ⟨rfl, rfl, rfl⟩) hf hs hn, fun hu => ?_⟩
  exact run_encode_of_fail (.inr ⟨rfl, rfl, rfl⟩) hf hs hn (hu.trans (Nat.mod_eq_of_lt x.isLt).symm)

/-! ### The frame of the encode commands -/

/-- What an encode leaves alone, in an acceptance and in a transfer: RESULT, ACC, the source, the offers and the reset
input (R38). -/
def EncodeKeeps (s t : State) : Prop :=
  t.result = s.result ∧ t.acc = s.acc ∧ t.srcAnswers = s.srcAnswers ∧ t.offers = s.offers ∧ t.resetInput = s.resetInput

/-- What a transfer of an encode does when the byte to write is `b`: it holds, writes `b`, or fails (R120, R160,
R162). -/
def WritesAtMost (b : Byte) (s t : State) : Prop :=
  t.op = s.op ∧ t.status.valid = s.status.valid ∧
    ((s.snkAnswers = [] ∧ t = s) ∨
      (s.snkAnswers = .ack :: t.snkAnswers ∧ t.acked = s.acked ++ [b] ∧ t.iocause = s.iocause ∧
        t.status.err = s.status.err) ∨
      (s.snkAnswers = .fail t.iocause :: t.snkAnswers ∧ t.acked = s.acked ∧ t.rem = s.rem ∧
        t.status.count = s.status.count))

section
variable {b : Byte} {s t : State}

theorem encodeOneByte_frame (h : encodeOneByte b s = .next t) : EncodeKeeps s t ∧ WritesAtMost b s t := by
  obtain ⟨hs, rfl⟩ | ⟨c, rest, hs, rfl⟩ | ⟨rest, hs, rfl⟩ := encodeOneByte_cases h
  · exact ⟨⟨rfl, rfl, rfl, rfl, rfl⟩, rfl, rfl, .inl ⟨hs, rfl⟩⟩
  · exact ⟨⟨rfl, rfl, rfl, rfl, rfl⟩, rfl, rfl, .inr (.inr ⟨hs, rfl, rfl, rfl⟩)⟩
  · exact ⟨⟨rfl, rfl, rfl, rfl, rfl⟩, rfl, rfl, .inr (.inl ⟨hs, rfl, rfl, rfl⟩)⟩

theorem encodeVarStep_frame {w : Nat} (h : encodeVarStep w s = .next t) :
    EncodeKeeps s t ∧ WritesAtMost (encStep (lowBits w s.rem)).byte s t := by
  obtain ⟨hs, rfl⟩ | ⟨c, rest, hs, rfl⟩ | ⟨rest, hs, -, rfl⟩ | ⟨rest, hs, -, rfl⟩ := encodeVarStep_cases h
  · exact ⟨⟨rfl, rfl, rfl, rfl, rfl⟩, rfl, rfl, .inl ⟨hs, rfl⟩⟩
  · exact ⟨⟨rfl, rfl, rfl, rfl, rfl⟩, rfl, rfl, .inr (.inr ⟨hs, rfl, rfl, rfl⟩)⟩
  · exact ⟨⟨rfl, rfl, rfl, rfl, rfl⟩, rfl, rfl, .inr (.inl ⟨hs, rfl, rfl, rfl⟩)⟩
  · exact ⟨⟨rfl, rfl, rfl, rfl, rfl⟩, rfl, rfl, .inr (.inl ⟨hs, rfl, rfl, rfl⟩)⟩

end

/-- The byte BOOL.ENC writes, as a number (R160). -/
theorem boolByte_eq_ofNat (r : Word64) : boolByte r = BitVec.ofNat 8 (r.toNat % 2) := by
  apply BitVec.eq_of_toNat_eq
  rw [boolByte, BitVec.toNat_setWidth, lowBits_toNat, BitVec.toNat_ofNat, Nat.pow_one]

theorem lowBits_eq_ofNat (w : Nat) (r : Word64) : lowBits w r = BitVec.ofNat w r.toNat := by
  apply BitVec.eq_of_toNat_eq
  rw [lowBits_toNat, BitVec.toNat_ofNat]

/-- The frame of an instruction accepted as an encode, from the frame of its transfer body (R43, R44). -/
theorem exec_frame {i : Instr} {b : Byte} {s t : State}
    (haccept : ∃ op ty x, acceptBody i s = acceptEncode op ty x s)
    (htransfer : transferBody i s = .next t → EncodeKeeps s t ∧ WritesAtMost b s t) (h : exec i s = .next t) :
    EncodeKeeps s t ∧ (s.fsm = .idle → t.acked = s.acked ∧ t.snkAnswers = s.snkAnswers ∧ t.iocause = s.iocause) ∧
      (s.fsm = .run → WritesAtMost b s t) := by
  obtain hf | hf := Fsm.idle_or_run s.fsm
  · obtain ⟨op, ty, x, ha⟩ := haccept
    rw [exec_of_idle hf, ha] at h
    cases h
    exact ⟨⟨rfl, rfl, rfl, rfl, rfl⟩, fun _ => ⟨rfl, rfl, rfl⟩, by simp [hf]⟩
  · rw [exec_of_run hf] at h
    obtain ⟨hkeeps, hwrites⟩ := htransfer h
    exact ⟨hkeeps, by simp [hf], fun _ => hwrites⟩

/-- Settles O47, for each of the four commands. -/
theorem encodeCommandsFrame : Obligations.EncodeCommandsFrame := by
  intro i x s t b hb h
  have hframe : EncodeKeeps s t ∧
      (s.fsm = .idle → t.acked = s.acked ∧ t.snkAnswers = s.snkAnswers ∧ t.iocause = s.iocause) ∧
      (s.fsm = .run → WritesAtMost b s t) := by
    obtain ⟨rfl, rfl⟩ | ⟨rfl, rfl⟩ | ⟨rfl, rfl⟩ | ⟨rfl, rfl⟩ := hb
    · exact exec_frame ⟨_, _, _, rfl⟩ (boolByte_eq_ofNat s.rem ▸ encodeOneByte_frame) h
    · exact exec_frame ⟨_, _, _, rfl⟩ (lowBits_eq_ofNat 8 s.rem ▸ encodeOneByte_frame) h
    · exact exec_frame (i := .varintEnc x) ⟨_, _, _, rfl⟩ encodeVarStep_frame h
    · exact exec_frame (i := .varlongEnc x) ⟨_, _, _, rfl⟩ encodeVarStep_frame h
  obtain ⟨⟨hresult, hacc, hsrc, hoffers, hreset⟩, hidle, hrun⟩ := hframe
  exact ⟨hresult, hacc, hsrc, hoffers, hreset, hidle, hrun⟩

end Sys2Proof.Machine
end

section
/-! PROOFS. The VarInt/VarLong decoder (42_varint_decode.md R140 to R149): one transfer step in arithmetic, the state after
any number of continued bytes, the three ends a decode can have, and the frame of the four decode commands. -/

namespace Sys2Proof.Machine

open Sys2Proof.Config (IoCause)

/-! ### One transfer step -/

theorem continuation_of_lt {b : Byte} (h : b.toNat < 128) : continuation b = false := by
  rw [continuation_eq, decide_eq_false (Nat.not_le.2 h)]

theorem continuation_of_ge {b : Byte} (h : 128 ≤ b.toNat) : continuation b = true := by
  rw [continuation_eq, decide_eq_true h]

theorem zext64_ofNat (w v : Nat) : zext64 (BitVec.ofNat w v) = BitVec.ofNat 64 (v % 2 ^ w) := by
  apply BitVec.eq_of_toNat_eq
  rw [zext64, BitVec.toNat_setWidth, BitVec.toNat_ofNat, BitVec.toNat_ofNat]

theorem ofNat_mod_width (w v : Nat) : BitVec.ofNat w (v % 2 ^ w) = BitVec.ofNat w v :=
  BitVec.eq_of_toNat_eq (by simp)

section
variable {w max v : Nat} {b : Byte} {rest : List SrcAnswer} {s : State}

/-- A failed read of DecodeVarStep is an Io abort (R140, R182). -/
theorem decodeVarStep_of_fail {c : IoCause} (hs : s.srcAnswers = .fail c :: rest) :
    decodeVarStep w max s = .next (raise (.io c) { s with srcAnswers := rest }) := by
  rw [decodeVarStep, srcRead_of_fail hs]

variable (hw : 7 ≤ w) (hs : s.srcAnswers = .byte b :: rest) (hlow : s.acc.toNat < 2 ^ (7 * s.status.count.toNat))
  (hv : v = (s.acc.toNat + b.toNat % 128 * 2 ^ (7 * s.status.count.toNat)) % 2 ^ w)

include hw hlow hv in
/-- `v` is what DecStep makes of ACC at index COUNT, when the groups gathered so far lie below it (R106, R107). -/
theorem decStep_lowBits : decStep (lowBits w s.acc) s.status.count.toNat b = BitVec.ofNat w v := by
  have hacc : (lowBits w s.acc).toNat < 2 ^ (7 * s.status.count.toNat) :=
    (lowBits_toNat w s.acc ▸ Nat.mod_le _ _).trans_lt hlow
  apply BitVec.eq_of_toNat_eq
  rw [decStep_toNat b hw hacc, lowBits_toNat, Nat.mod_add_mod, BitVec.toNat_ofNat, hv, Nat.mod_mod]

include hw hlow hv in
/-- The whole state when the group is taken, before the decode ends or goes on (R140). -/
theorem gathered_eq : gathered w b s = countUp { s with acc := BitVec.ofNat 64 v } := by
  have hmod : v % 2 ^ w = v := by rw [hv, Nat.mod_mod]
  rw [gathered, decStep_lowBits hw hlow hv, zext64_ofNat, hmod]

include hw hs hlow hv

/-- A byte without the continuation bit completes DecodeVarStep at every index below MAX (R140, R149). -/
theorem decodeVarStep_of_last (hk : s.status.count.toNat < max) (hb : continuation b = false) :
    decodeVarStep w max s = .next { s with
      status := { s.status with busy := false, done := true, valid := true, count := s.status.count + 1#4 }
      result := sext64 (BitVec.ofNat w v)
      acc := BitVec.ofNat 64 v, fsm := .idle, srcAnswers := rest } := by
  rw [decodeVarStep, srcRead_of_byte hs]
  obtain ⟨-, -, h⟩ | ⟨-, hc, -⟩ | ⟨-, hc, -⟩ | ⟨hk', -⟩ := takeGroup_cases w max b { s with srcAnswers := rest }
  · rw [h, gathered_eq (s := { s with srcAnswers := rest }) hw hlow hv, decStep_lowBits hw hlow hv]
    rfl
  · simp [hb] at hc
  · simp [hb] at hc
  · exact absurd hk (Nat.not_lt.2 hk')

/-- A byte with the continuation bit at an index below MAX-1 lets DecodeVarStep go on (R140). -/
theorem decodeVarStep_of_more (hmax : max ≤ 10) (hk : s.status.count.toNat + 1 < max) (hb : continuation b = true) :
    decodeVarStep w max s = .next { s with
      status := { s.status with count := s.status.count + 1#4 }
      acc := BitVec.ofNat 64 v, srcAnswers := rest } := by
  rw [decodeVarStep, srcRead_of_byte hs]
  obtain ⟨-, hc, -⟩ | ⟨-, -, hm, -⟩ | ⟨-, -, -, h⟩ | ⟨hk', -⟩ :=
    takeGroup_cases w max b { s with srcAnswers := rest }
  · simp [hb] at hc
  · simp only [BitVec.toNat_add, BitVec.toNat_ofNat] at hm
    omega
  · rw [h, gathered_eq (s := { s with srcAnswers := rest }) hw hlow hv]
    rfl
  · dsimp only at hk'
    omega

/-- A byte with the continuation bit at index MAX-1 makes DecodeVarStep raise TooBig (R143). -/
theorem decodeVarStep_of_tooBig (hmax : max ≤ 10) (hk : s.status.count.toNat + 1 = max) (hb : continuation b = true) :
    decodeVarStep w max s = .next { s with
      status := { s.status with busy := false, done := true, err := .tooBig, count := BitVec.ofNat 4 max }
      acc := BitVec.ofNat 64 v, fsm := .idle, srcAnswers := rest } := by
  have hcount : s.status.count + 1#4 = BitVec.ofNat 4 max := by
    rw [← hk, BitVec.ofNat_add, BitVec.ofNat_toNat, BitVec.setWidth_eq]
  rw [decodeVarStep, srcRead_of_byte hs, ← hcount]
  obtain ⟨-, hc, -⟩ | ⟨-, -, -, h⟩ | ⟨-, -, hm, -⟩ | ⟨hk', -⟩ :=
    takeGroup_cases w max b { s with srcAnswers := rest }
  · simp [hb] at hc
  · rw [h, gathered_eq (s := { s with srcAnswers := rest }) hw hlow hv]
    rfl
  · simp only [BitVec.toNat_add, BitVec.toNat_ofNat] at hm
    omega
  · dsimp only at hk'
    omega

end

/-- Settles O22, at width 32. -/
theorem varintDecStep : Obligations.VarintDecStep := by
  refine fun x s => ⟨exec_of_idle (i := .varintDec x), fun b later v hf hs hk hlow hv => ?_, fun c later hf hs => ?_⟩
  · rw [exec_of_run hf]
    exact ⟨fun hb => decodeVarStep_of_last (by decide) hs hlow hv (Nat.lt_succ_of_le hk) (continuation_of_lt hb),
      fun hb hk => decodeVarStep_of_more (by decide) hs hlow hv (by decide) (Nat.succ_lt_succ hk)
        (continuation_of_ge hb),
      fun hb hk => decodeVarStep_of_tooBig (by decide) hs hlow hv (by decide) (congrArg Nat.succ hk)
        (continuation_of_ge hb)⟩
  · rw [exec_of_run hf]
    exact decodeVarStep_of_fail hs

/-- Settles O23, at width 64. -/
theorem varlongDecStep : Obligations.VarlongDecStep := by
  refine fun x s => ⟨exec_of_idle (i := .varlongDec x), fun b later v hf hs hk hlow hv => ?_, fun c later hf hs => ?_⟩
  · rw [exec_of_run hf]
    exact ⟨fun hb => (decodeVarStep_of_last (by decide) hs hlow hv (Nat.lt_succ_of_le hk) (continuation_of_lt hb)).trans
        (by rw [sext64_64]),
      fun hb hk => decodeVarStep_of_more (by decide) hs hlow hv (by decide) (Nat.succ_lt_succ hk)
        (continuation_of_ge hb),
      fun hb hk => decodeVarStep_of_tooBig (by decide) hs hlow hv (by decide) (congrArg Nat.succ hk)
        (continuation_of_ge hb)⟩
  · rw [exec_of_run hf]
    exact decodeVarStep_of_fail hs

/-! ### Runs that read continued bytes -/

section
variable {n : Nat} {s t u : State}

/-- A run that goes on goes on at its first step. -/
theorem core_run_succ_next (h : core.run (n + 1) s = .next t) : ∃ u, step s = .next u ∧ core.run n u = .next t := by
  cases hs : step s with
  | next u => exact ⟨u, rfl, core_run_succ hs n ▸ h⟩
  | fault r =>
    have hcore : core.step s = .fault r := hs
    simp [Host.Core.run, hcore] at h
  | refused r =>
    have hcore : core.step s = .refused r := hs
    simp [Host.Core.run, hcore] at h

/-- A run and one step more. -/
theorem core_run_then_step (h : core.run n s = .next t) (ht : step t = .next u) : core.run (n + 1) s = .next u := by
  induction n generalizing s with
  | zero =>
    cases h
    exact core_run_succ ht 0
  | succ n ih =>
    obtain ⟨v, hs, hv⟩ := core_run_succ_next h
    rw [core_run_succ hs, ih hv]

theorem notReset_of_nil (h : s.resetInput = []) : NotReset n s := by simp [NotReset, h]

theorem NotReset.init (h : NotReset (n + 1) s) : NotReset n s :=
  fun r hr => h r (List.take_subset_take_left _ n.le_succ hr)

/-- The reset sample of step `n` is not asserted, if none of those up to it is. -/
theorem NotReset.last (h : NotReset (n + 1) s) (ht : t.resetInput = s.resetInput.drop n) : NotReset 1 t := by
  intro r hr
  rw [ht, List.take_drop] at hr
  exact h r (List.mem_of_mem_drop hr)

end

theorem groupSum_append_singleton (bytes : List Byte) (b : Byte) :
    groupSum (bytes ++ [b]) = groupSum bytes + b.toNat % 128 * 2 ^ (7 * bytes.length) := by
  induction bytes with
  | nil => simp [groupSum, group_toNat]
  | cons a bytes ih =>
    rw [List.cons_append, groupSum, ih, groupSum, List.length_cons, two_pow_groups_succ]
    ring

theorem groupSum_lt (bytes : List Byte) : groupSum bytes < 2 ^ (7 * bytes.length) := by
  induction bytes with
  | nil => simp [groupSum]
  | cons b bytes ih =>
    have hgroup := (group b).isLt
    rw [groupSum, List.length_cons, two_pow_groups_succ]
    omega

/-- The width of the two decodes, and the most bytes they read (R8). -/
theorem IsVarDec.bounds {op : BitVec 8} {w max : Nat} (h : IsVarDec op w max) : 7 ≤ w ∧ w ≤ 64 ∧ max ≤ 10 := by
  obtain ⟨-, rfl, rfl⟩ | ⟨-, rfl, rfl⟩ := h <;> decide

/-- `s` after a decode of width `w` with opcode `op` is accepted and has read `bytes` without an end (R43, R140); what the
host, the source and the reset input still hold is `later`, `src` and `reset`. -/
def afterReads (op : BitVec 8) (w : Nat) (bytes : List Byte) (later : List Command) (src : List SrcAnswer)
    (reset : List ResetSample) (s : State) : State :=
  { s with
    status := { busy := true, done := false, valid := false, err := .none, count := BitVec.ofNat 4 bytes.length }
    fsm := .run, op := op, acc := BitVec.ofNat 64 (groupSum bytes % 2 ^ w), offers := later, srcAnswers := src
    resetInput := reset }

section
variable {op : BitVec 8} {w max k : Nat} {x : Word64} {b : Byte} {bytes : List Byte} {later : List Command}
  {src : List SrcAnswer} {reset : List ResetSample} {c : IoCause} {s : State}

/-- In IDLE a step without a reset accepts the VarInt or VarLong decode offered first (R43, R141, R142). -/
theorem step_accepts_varDec (hop : IsVarDec op w max) (hf : s.fsm = .idle) (hn : NotReset 1 s)
    (ho : s.offers = ⟨op, x⟩ :: later) :
    step s = .next (afterReads op w [] later s.srcAnswers s.resetInput.tail s) := by
  rw [afterReads, groupSum, Nat.zero_mod]
  obtain ⟨rfl, -⟩ | ⟨rfl, -⟩ := hop
  · exact (idleStepRunsTheOfferedCommand s _ later _ hn hf ho (decode_encode (.varintDec x))).trans
      ((varintDecStep x _).1 hf)
  · exact (idleStepRunsTheOfferedCommand s _ later _ hn hf ho (decode_encode (.varlongDec x))).trans
      ((varlongDecStep x _).1 hf)

section
variable (hop : IsVarDec op w max) (hn : NotReset 1 (afterReads op w bytes later src reset s))
include hop

include hn in
/-- In a decode each step without a reset is a DecodeVarStep (R44). -/
theorem step_afterReads : step (afterReads op w bytes later src reset s) =
    decodeVarStep w max (afterReads op w bytes later src reset.tail s) := by
  rw [step_of_notReset hn]
  obtain ⟨rfl, rfl, rfl⟩ | ⟨rfl, rfl, rfl⟩ := hop
  · exact blockStep_of_run (i := .varintDec 0#64) rfl rfl
  · exact blockStep_of_run (i := .varlongDec 0#64) rfl rfl

variable (hk : bytes.length < max)
include hk

theorem afterReads_count : (afterReads op w bytes later src reset s).status.count.toNat = bytes.length := by
  obtain ⟨-, -, hmax⟩ := hop.bounds
  exact Nat.mod_eq_of_lt (by omega)

/-- The groups read lie below the index of the next (R106). -/
theorem afterReads_acc_lt : (afterReads op w bytes later src reset s).acc.toNat <
    2 ^ (7 * (afterReads op w bytes later src reset s).status.count.toNat) := by
  rw [afterReads_count hop hk]
  exact ((Nat.mod_le _ _).trans (Nat.mod_le _ _)).trans_lt (groupSum_lt bytes)

/-- The groups read, with the next one, modulo the width (R104, R107). -/
theorem afterReads_acc_add (b : Byte) : groupSum (bytes ++ [b]) % 2 ^ w =
    ((afterReads op w bytes later src reset s).acc.toNat +
      b.toNat % 128 * 2 ^ (7 * (afterReads op w bytes later src reset s).status.count.toNat)) % 2 ^ w := by
  obtain ⟨-, hw, -⟩ := hop.bounds
  have hacc : (afterReads op w bytes later src reset s).acc.toNat = groupSum bytes % 2 ^ w :=
    Nat.mod_eq_of_lt ((Nat.mod_lt _ (Nat.two_pow_pos w)).trans_le (Nat.pow_le_pow_right (by decide) hw))
  rw [afterReads_count hop hk, hacc, Nat.mod_add_mod, groupSum_append_singleton]

end

section
variable (hop : IsVarDec op w max) (hn : NotReset 1 (afterReads op w bytes later (.byte b :: src) reset s))
include hop hn

/-- A decode in progress that reads a continued byte at an index below MAX-1 goes on (R140). -/
theorem step_afterReads_of_more (hb : continuation b = true) (hk : bytes.length + 1 < max) :
    step (afterReads op w bytes later (.byte b :: src) reset s) =
      .next (afterReads op w (bytes ++ [b]) later src reset.tail s) := by
  obtain ⟨hw, -, hmax⟩ := hop.bounds
  have hlt : bytes.length < max := by omega
  rw [step_afterReads hop hn, decodeVarStep_of_more hw rfl (afterReads_acc_lt hop hlt) (afterReads_acc_add hop hlt b)
    hmax (by rwa [afterReads_count hop hlt]) hb]
  simp [afterReads, BitVec.ofNat_add]

/-- A decode in progress that reads a byte without the continuation bit completes (R140, R144, R149). -/
theorem step_afterReads_of_last (hb : continuation b = false) (hk : bytes.length < max) :
    step (afterReads op w bytes later (.byte b :: src) reset s) =
      .next (completeDecode (sext64 (BitVec.ofNat w (groupSum (bytes ++ [b]))))
        (afterReads op w (bytes ++ [b]) later src reset.tail s)) := by
  obtain ⟨hw, -, -⟩ := hop.bounds
  rw [step_afterReads hop hn, decodeVarStep_of_last hw rfl (afterReads_acc_lt hop hk) (afterReads_acc_add hop hk b)
    (by rwa [afterReads_count hop hk]) hb, ofNat_mod_width]
  simp [completeDecode, complete, Status.complete, Status.setValid, afterReads, BitVec.ofNat_add]

/-- A decode in progress that reads a continued byte at index MAX-1 ends with TooBig (R143). -/
theorem step_afterReads_of_tooBig (hb : continuation b = true) (hk : bytes.length + 1 = max) :
    step (afterReads op w bytes later (.byte b :: src) reset s) =
      .next (raise .tooBig (afterReads op w (bytes ++ [b]) later src reset.tail s)) := by
  obtain ⟨hw, -, hmax⟩ := hop.bounds
  have hlt : bytes.length < max := by omega
  rw [step_afterReads hop hn, decodeVarStep_of_tooBig hw rfl (afterReads_acc_lt hop hlt) (afterReads_acc_add hop hlt b)
    hmax (by rwa [afterReads_count hop hlt]) hb]
  simp [raise, Status.abort, afterReads, hk]

end

/-- A decode in progress whose read fails ends with Io (R146, R182). -/
theorem step_afterReads_of_fail (hop : IsVarDec op w max)
    (hn : NotReset 1 (afterReads op w bytes later (.fail c :: src) reset s)) :
    step (afterReads op w bytes later (.fail c :: src) reset s) =
      .next (raise (.io c) (afterReads op w bytes later src reset.tail s)) := by
  rw [step_afterReads hop hn]
  exact decodeVarStep_of_fail rfl

/-- A decode offered first that reads fewer than MAX bytes, all continued, is still in progress (R140). -/
theorem run_decode_of_continued (hop : IsVarDec op w max) (hf : s.fsm = .idle) (ho : s.offers = ⟨op, x⟩ :: later)
    (hs : s.srcAnswers = bytes.map .byte ++ src) (hn : NotReset (bytes.length + 1) s) (hb : AllContinued bytes)
    (hk : bytes.length < max) :
    core.run (bytes.length + 1) s =
      .next (afterReads op w bytes later src (s.resetInput.drop (bytes.length + 1)) s) := by
  induction bytes using List.reverseRecOn generalizing src with
  | nil =>
    rw [core_run_succ (step_accepts_varDec hop hf hn ho), hs, List.length_nil, List.drop_one]
    rfl
  | append_singleton bytes b ih =>
    rw [List.length_append, List.length_singleton] at hn hk ⊢
    have hs : s.srcAnswers = bytes.map .byte ++ .byte b :: src := by simpa using hs
    have hrun := ih hs hn.init (fun a ha => hb a (by simp [ha])) (by omega)
    refine core_run_then_step hrun ?_
    rw [step_afterReads_of_more hop (hn.last rfl) (hb b (by simp)) hk, List.tail_drop]

/-! ### Whole decodes -/

section
variable (hop : IsVarDec op w max) (hf : s.fsm = .idle) (ho : s.offers = ⟨op, x⟩ :: later)
include hop hf ho

/-- A decode offered first, of a terminated sequence of at most MAX bytes (R144, R145, R147, R149). -/
theorem run_decode_of_terminated (hs : s.srcAnswers = bytes.map .byte ++ src) (hn : NotReset (bytes.length + 1) s)
    (ht : Terminated max bytes) :
    core.run (bytes.length + 1) s = .next (completeDecode (sext64 (BitVec.ofNat w (groupSum bytes)))
      (afterReads op w bytes later src (s.resetInput.drop (bytes.length + 1)) s)) := by
  obtain ⟨init, last, rfl, hinit, hlast, hlen⟩ := ht
  rw [List.length_append, List.length_singleton] at hn hlen ⊢
  have hs : s.srcAnswers = init.map .byte ++ .byte last :: src := by simpa using hs
  refine core_run_then_step (run_decode_of_continued hop hf ho hs hn.init hinit hlen) ?_
  rw [step_afterReads_of_last hop (hn.last rfl) hlast hlen, List.tail_drop]

/-- A decode offered first, of MAX continued bytes (R143). -/
theorem run_decode_of_tooBig (hs : s.srcAnswers = bytes.map .byte ++ src) (hn : NotReset (bytes.length + 1) s)
    (hb : AllContinued bytes) (hlen : bytes.length = max) :
    core.run (bytes.length + 1) s =
      .next (raise .tooBig (afterReads op w bytes later src (s.resetInput.drop (bytes.length + 1)) s)) := by
  obtain rfl | ⟨init, last, rfl⟩ := bytes.eq_nil_or_concat'
  · obtain ⟨-, -, rfl⟩ | ⟨-, -, rfl⟩ := hop <;> simp at hlen
  rw [List.length_append, List.length_singleton] at hn hlen ⊢
  have hs : s.srcAnswers = init.map .byte ++ .byte last :: src := by simpa using hs
  refine core_run_then_step (run_decode_of_continued hop hf ho hs hn.init (fun b h => hb b (by simp [h])) ?_) ?_
  · omega
  · rw [step_afterReads_of_tooBig hop (hn.last rfl) (hb last (by simp)) hlen, List.tail_drop]

/-- A decode offered first, the source of which fails after fewer than MAX continued bytes (R146, R182). -/
theorem run_decode_of_fail (hs : s.srcAnswers = bytes.map .byte ++ .fail c :: src)
    (hn : NotReset (bytes.length + 2) s) (hb : AllContinued bytes) (hk : bytes.length < max) :
    core.run (bytes.length + 2) s =
      .next (raise (.io c) (afterReads op w bytes later src (s.resetInput.drop (bytes.length + 2)) s)) := by
  refine core_run_then_step (run_decode_of_continued hop hf ho hs hn.init hb hk) ?_
  rw [step_afterReads_of_fail hop (hn.last rfl), List.tail_drop]

end

end

/-- Settles O35, at widths 32 and 64. -/
theorem decodeReadsATerminatedSequence : Obligations.DecodeReadsATerminatedSequence := by
  rintro s x later src bytes n rfl hf hs hn
  refine ⟨fun ht ho => run_decode_of_terminated (.inl ⟨rfl, rfl, rfl⟩) hf ho hs hn ht, fun ht ho => ?_⟩
  rw [run_decode_of_terminated (.inr ⟨rfl, rfl, rfl⟩) hf ho hs hn ht, sext64_64, afterReads, ofNat_mod_width]
  rfl

/-- Settles O36, at widths 32 and 64. -/
theorem tooBigAfterMaxContinuedBytes : Obligations.TooBigAfterMaxContinuedBytes := by
  refine fun s x later src bytes hf hb hs hn => ⟨fun hlen ho => ?_, fun hlen ho => ?_⟩
  · have hrun := run_decode_of_tooBig (.inl ⟨rfl, rfl, rfl⟩) hf ho hs hn hb hlen
    rw [afterReads, hlen] at hrun
    exact hrun
  · have hrun := run_decode_of_tooBig (.inr ⟨rfl, rfl, rfl⟩) hf ho hs hn hb hlen
    rw [afterReads, hlen, ofNat_mod_width] at hrun
    exact hrun

/-- Settles O37: fewer than MAX groups lie inside the width, so none of their value is lost (R106). -/
theorem decodeCutShortGivesIo : Obligations.DecodeCutShortGivesIo := by
  rintro s x later src bytes c k rfl hf hb hs hn
  refine ⟨fun hk ho => ?_, fun hk ho => ?_⟩
  · have hlt : groupSum bytes < 2 ^ 32 :=
      (groupSum_lt bytes).trans_le (Nat.pow_le_pow_right (by decide) (by omega))
    rw [run_decode_of_fail (.inl ⟨rfl, rfl, rfl⟩) hf ho hs hn hb (Nat.lt_succ_of_le hk), afterReads,
      Nat.mod_eq_of_lt hlt]
    rfl
  · rw [run_decode_of_fail (.inr ⟨rfl, rfl, rfl⟩) hf ho hs hn hb (Nat.lt_succ_of_le hk), afterReads, ofNat_mod_width]
    rfl

/-! ### An encode and then a decode of its bytes -/

/-- The bytes of an encode are a terminated sequence of the value it took, so the decode of them gives it back (R148). -/
theorem run_encode_then_decode {opEnc opDec : BitVec 8} {w max n : Nat} {x : Word64} {snk : List SnkAnswer} {s : State}
    (henc : IsVarEnc opEnc w max) (hdec : IsVarDec opDec w max) (hf : s.fsm = .idle) (hr : s.resetInput = [])
    (hs : s.snkAnswers = List.replicate n .ack ++ snk) (hn : n = encLength max (x.toNat % 2 ^ w))
    (ho : s.offers = [⟨opEnc, x⟩]) (y : Word64) (src : List SrcAnswer) :
    ∃ t bytes v, core.run (n + 1) s = .next t ∧ t.acked = s.acked ++ bytes ∧ t.status.err = .none ∧
      core.run (n + 1) { t with offers := [⟨opDec, y⟩], srcAnswers := bytes.map .byte ++ src } = .next v ∧
      v.fsm = .idle ∧ v.status.valid = true ∧ v.status.err = .none ∧ v.status.count = t.status.count ∧
      v.srcAnswers = src ∧ v.result = sext64 (BitVec.ofNat w x.toNat) := by
  obtain ⟨hpos, hfit⟩ := henc.max_groups (Nat.mod_lt x.toNat (Nat.two_pow_pos w))
  have hlen : n = (canonicalBytes max (x.toNat % 2 ^ w)).length := hn.trans (canonicalBytes_length _ _).symm
  have hencoded := run_encode_of_acks henc hf hs (notReset_of_nil hr) rfl hn ho
  subst hlen
  refine ⟨_, _, _, hencoded, rfl, rfl,
    run_decode_of_terminated hdec rfl rfl rfl (notReset_of_nil (by simp [hr])) (terminated_canonicalBytes hpos hfit),
    rfl, rfl, rfl, rfl, rfl, ?_⟩
  rw [groupSum_canonicalBytes hfit, ofNat_mod_width]
  rfl

/-- Settles O38, at widths 32 and 64. -/
theorem encodeThenDecodeGivesTheValueBack : Obligations.EncodeThenDecodeGivesTheValueBack := by
  refine fun s x y snk src n hf hr hs => ⟨fun hn ho => ?_, fun hn ho => ?_⟩
  · obtain ⟨t, bytes, v, ht, hacked, herr, hv, hidle, hvalid, hnone, hcount, hsrc, hresult⟩ :=
      run_encode_then_decode (.inl ⟨rfl, rfl, rfl⟩) (.inl ⟨rfl, rfl, rfl⟩) hf hr hs hn ho y src
    exact ⟨t, bytes, v, ht, hacked, herr, hv, hidle, hvalid, hnone, hcount, hsrc,
      by rw [hresult, sext64_toInt (by decide)]⟩
  · obtain ⟨t, bytes, v, ht, hacked, herr, hv, hidle, hvalid, hnone, hcount, hsrc, hresult⟩ :=
      run_encode_then_decode (.inr ⟨rfl, rfl, rfl⟩) (.inr ⟨rfl, rfl, rfl⟩) hf hr hs
        (by rwa [Nat.mod_eq_of_lt x.isLt]) ho y src
    exact ⟨t, bytes, v, ht, hacked, herr, hv, hidle, hvalid, hnone, hcount, hsrc,
      by rw [hresult, sext64_64, BitVec.ofNat_toNat, BitVec.setWidth_eq]⟩

/-! ### The frame of the decode commands -/

/-- What a decode leaves alone, in an acceptance and in a transfer: REM, the sink and its bytes, the offers and the reset
input (R38). -/
def DecodeKeeps (s t : State) : Prop :=
  t.rem = s.rem ∧ t.snkAnswers = s.snkAnswers ∧ t.acked = s.acked ∧ t.offers = s.offers ∧ t.resetInput = s.resetInput

/-- What a transfer of a decode does: it holds, reads a byte, or fails; `fixed` says whether the decode is of fixed width
and so leaves ACC (R140, R161, R163). -/
def ReadsAtMost (fixed : Prop) (s t : State) : Prop :=
  t.op = s.op ∧
    ((s.srcAnswers = [] ∧ t = s) ∨
      ((∃ b, s.srcAnswers = .byte b :: t.srcAnswers) ∧ t.iocause = s.iocause ∧ (fixed → t.acc = s.acc)) ∨
      (s.srcAnswers = .fail t.iocause :: t.srcAnswers ∧ t.result = s.result ∧ t.acc = s.acc ∧
        t.status.count = s.status.count ∧ t.status.valid = s.status.valid))

section
variable {fixed : Prop} {s t : State}

theorem decodeOneByte_frame {value : Byte → Word64} (h : decodeOneByte value s = .next t) :
    DecodeKeeps s t ∧ ReadsAtMost fixed s t := by
  obtain ⟨hs, rfl⟩ | ⟨c, rest, hs, rfl⟩ | ⟨b, rest, hs, rfl⟩ := decodeOneByte_cases h
  · exact ⟨⟨rfl, rfl, rfl, rfl, rfl⟩, rfl, .inl ⟨hs, rfl⟩⟩
  · exact ⟨⟨rfl, rfl, rfl, rfl, rfl⟩, rfl, .inr (.inr ⟨hs, rfl, rfl, rfl, rfl⟩)⟩
  · exact ⟨⟨rfl, rfl, rfl, rfl, rfl⟩, rfl, .inr (.inl ⟨⟨b, hs⟩, rfl, fun _ => rfl⟩)⟩

theorem decodeVarStep_frame {w max : Nat} (hvar : ¬ fixed) (h : decodeVarStep w max s = .next t) :
    DecodeKeeps s t ∧ ReadsAtMost fixed s t := by
  obtain ⟨hs, rfl⟩ | ⟨c, rest, hs, rfl⟩ | ⟨b, rest, hs, -, -, rfl⟩ | ⟨b, rest, hs, -, -, -, rfl⟩ |
    ⟨b, rest, hs, -, -, -, rfl⟩ := decodeVarStep_cases h
  · exact ⟨⟨rfl, rfl, rfl, rfl, rfl⟩, rfl, .inl ⟨hs, rfl⟩⟩
  · exact ⟨⟨rfl, rfl, rfl, rfl, rfl⟩, rfl, .inr (.inr ⟨hs, rfl, rfl, rfl, rfl⟩)⟩
  · exact ⟨⟨rfl, rfl, rfl, rfl, rfl⟩, rfl, .inr (.inl ⟨⟨b, hs⟩, rfl, fun hfixed => absurd hfixed hvar⟩)⟩
  · exact ⟨⟨rfl, rfl, rfl, rfl, rfl⟩, rfl, .inr (.inl ⟨⟨b, hs⟩, rfl, fun hfixed => absurd hfixed hvar⟩)⟩
  · exact ⟨⟨rfl, rfl, rfl, rfl, rfl⟩, rfl, .inr (.inl ⟨⟨b, hs⟩, rfl, fun hfixed => absurd hfixed hvar⟩)⟩

/-- The frame of an instruction accepted as a decode, from the frame of its transfer body (R43, R44). -/
theorem exec_decode_frame {i : Instr} (haccept : ∃ op, acceptBody i s = acceptDecode op s)
    (htransfer : transferBody i s = .next t → DecodeKeeps s t ∧ ReadsAtMost fixed s t) (h : exec i s = .next t) :
    DecodeKeeps s t ∧ (s.fsm = .idle → t.srcAnswers = s.srcAnswers ∧ t.result = s.result ∧ t.iocause = s.iocause) ∧
      (s.fsm = .run → ReadsAtMost fixed s t) := by
  obtain hf | hf := Fsm.idle_or_run s.fsm
  · obtain ⟨op, ha⟩ := haccept
    rw [exec_of_idle hf, ha] at h
    cases h
    exact ⟨⟨rfl, rfl, rfl, rfl, rfl⟩, fun _ => ⟨rfl, rfl, rfl⟩, by simp [hf]⟩
  · rw [exec_of_run hf] at h
    obtain ⟨hkeeps, hreads⟩ := htransfer h
    exact ⟨hkeeps, by simp [hf], fun _ => hreads⟩

end

/-- Settles O48, for each of the four commands. -/
theorem decodeCommandsFrame : Obligations.DecodeCommandsFrame := by
  intro i x s t hi h
  have hframe : DecodeKeeps s t ∧
      (s.fsm = .idle → t.srcAnswers = s.srcAnswers ∧ t.result = s.result ∧ t.iocause = s.iocause) ∧
      (s.fsm = .run → ReadsAtMost (i = .boolDec x ∨ i = .byteDec x) s t) := by
    obtain rfl | rfl | rfl | rfl := hi
    · exact exec_decode_frame (i := .boolDec x) ⟨_, rfl⟩ decodeOneByte_frame h
    · exact exec_decode_frame (i := .byteDec x) ⟨_, rfl⟩ decodeOneByte_frame h
    · exact exec_decode_frame (i := .varintDec x) ⟨_, rfl⟩ (decodeVarStep_frame (by simp)) h
    · exact exec_decode_frame (i := .varlongDec x) ⟨_, rfl⟩ (decodeVarStep_frame (by simp)) h
  obtain ⟨⟨hrem, hsnk, hacked, hoffers, hreset⟩, hidle, hrun⟩ := hframe
  exact ⟨hrem, hsnk, hacked, hoffers, hreset, hidle, hrun⟩

end Sys2Proof.Machine
end

section
/-! PROOFS. The fixed-width commands (43_fixed_width.md R160 to R166): the acceptance of an illegal command, one transfer
step for each answer of the port, whole commands from their acceptance, and the two codecs. -/

namespace Sys2Proof.Machine

open Sys2Proof.Config (IoCause)

/-! ### An illegal command -/

/-- Of STATUS an illegal acceptance leaves BUSY, and of the rest of the state everything (R43, R164). -/
theorem acceptIllegal_eq (s : State) : acceptIllegal s = { s with
    status := { busy := s.status.busy, done := true, valid := false, err := .illegalCmd, count := 0#4 } } := rfl

/-- In IDLE a step with an illegal offer is its whole effect (R43, R164). -/
theorem blockStep_of_illegal {s : State} {c : Command} {later : List Command} (hf : s.fsm = .idle)
    (ho : s.offers = c :: later) (hl : legal c.op = false) :
    blockStep s = .next (acceptIllegal { s with offers := later }) := by
  obtain ⟨e, hd⟩ := decode_error_of_illegal hl
  simp only [blockStep, hf, takeOffer, ho, hd]

/-- Settles O8, the reset sample taken and then the offer. -/
theorem illegalCommandCompletesAtOnce : Obligations.IllegalCommandCompletesAtOnce := by
  intro s c later hn hf hb ho hl
  have hstep := blockStep_of_illegal (s := { s with resetInput := s.resetInput.tail }) hf ho hl
  rw [step_of_notReset hn, hstep]
  simp only [acceptIllegal_eq, hb]

/-! ### One transfer step -/

section
variable {b : Byte} {c : IoCause} {value : Byte → Word64} {s : State}

/-- An acknowledged one-byte encode writes its byte and completes (R160, R162). -/
theorem encodeOneByte_of_ack {rest : List SnkAnswer} (hs : s.snkAnswers = .ack :: rest) :
    encodeOneByte b s = .next { s with
      status := { s.status with busy := false, done := true, count := 1#4 }
      fsm := .idle, snkAnswers := rest, acked := s.acked ++ [b] } :=
  snkWrite_of_ack hs

/-- A one-byte encode whose write fails is an Io abort (R160, R162, R182). -/
theorem encodeOneByte_of_fail {rest : List SnkAnswer} (hs : s.snkAnswers = .fail c :: rest) :
    encodeOneByte b s = .next (raise (.io c) { s with snkAnswers := rest }) :=
  snkWrite_of_fail hs

/-- A one-byte decode that gets its byte writes RESULT and completes (R161, R163). -/
theorem decodeOneByte_of_byte {rest : List SrcAnswer} (hs : s.srcAnswers = .byte b :: rest) :
    decodeOneByte value s = .next { s with
      status := { s.status with busy := false, done := true, valid := true, count := 1#4 }
      result := value b
      fsm := .idle, srcAnswers := rest } :=
  srcRead_of_byte hs

/-- A one-byte decode whose read fails is an Io abort (R161, R163, R182). -/
theorem decodeOneByte_of_fail {rest : List SrcAnswer} (hs : s.srcAnswers = .fail c :: rest) :
    decodeOneByte value s = .next (raise (.io c) { s with srcAnswers := rest }) :=
  srcRead_of_fail hs

end

/-! ### Operand slices, the bytes written and the values read -/

theorem operandSlice_bool (x : Word64) : operandSlice .bool x = BitVec.ofNat 64 (x.toNat % 2) :=
  zext64_lowBits_eq_ofNat 1 x

theorem operandSlice_byte (x : Word64) : operandSlice .byte x = BitVec.ofNat 64 (x.toNat % 256) :=
  zext64_lowBits_eq_ofNat 8 x

/-- BOOL.ENC writes 0x01 or 0x00, by bit 0 of REM (R160). -/
theorem boolByte_eq_ite (r : Word64) : boolByte r = if r.toNat % 2 = 1 then 0x01#8 else 0x00#8 := by
  rw [boolByte_eq_ofNat]
  obtain h | h := Nat.mod_two_eq_zero_or_one r.toNat <;> rw [h] <;> rfl

theorem lowBits_8_eq_ofNat_mod (r : Word64) : lowBits 8 r = BitVec.ofNat 8 (r.toNat % 256) :=
  (lowBits_eq_ofNat 8 r).trans (ofNat_mod_width 8 r.toNat).symm

/-- BOOL.DEC reads 0 or 1, by the byte as a number (R161). -/
theorem boolValue_eq_ite (b : Byte) : boolValue b = if b.toNat = 0 then 0#64 else 1#64 := by
  have hzero : b ≠ 0x00#8 ↔ ¬ b.toNat = 0 := not_congr BitVec.toNat_inj.symm
  rw [boolValue, if_congr hzero rfl rfl, ite_not]

/-! ### The steps of the four commands -/

/-- Settles O14. -/
theorem boolEncWritesBitZero : Obligations.BoolEncWritesBitZero := by
  refine fun x s => ⟨fun hf => ?_, fun later hf hs => ?_, fun c later hf hs => ?_⟩
  · rw [exec_of_idle hf, ← operandSlice_bool]
    rfl
  · rw [exec_of_run hf, ← boolByte_eq_ite]
    exact encodeOneByte_of_ack hs
  · rw [exec_of_run hf]
    exact encodeOneByte_of_fail hs

/-- Settles O15. -/
theorem byteEncWritesTheLowByte : Obligations.ByteEncWritesTheLowByte := by
  refine fun x s => ⟨fun hf => ?_, fun later hf hs => ?_, fun c later hf hs => ?_⟩
  · rw [exec_of_idle hf, ← operandSlice_byte]
    rfl
  · rw [exec_of_run hf, ← lowBits_8_eq_ofNat_mod]
    exact encodeOneByte_of_ack hs
  · rw [exec_of_run hf]
    exact encodeOneByte_of_fail hs

/-- Settles O16. -/
theorem boolDecReadsZeroAsFalse : Obligations.BoolDecReadsZeroAsFalse := by
  refine fun x s => ⟨exec_of_idle (i := .boolDec x), fun b later hf hs => ?_, fun c later hf hs => ?_⟩
  · rw [exec_of_run hf, ← boolValue_eq_ite]
    exact decodeOneByte_of_byte hs
  · rw [exec_of_run hf]
    exact decodeOneByte_of_fail hs

/-- Settles O17. -/
theorem byteDecReadsTheSignedByte : Obligations.ByteDecReadsTheSignedByte := by
  refine fun x s => ⟨exec_of_idle (i := .byteDec x), fun b later hf hs => ?_, fun c later hf hs => ?_⟩
  · rw [exec_of_run hf, ← sext64_eq_ofInt]
    exact decodeOneByte_of_byte hs
  · rw [exec_of_run hf]
    exact decodeOneByte_of_fail hs

/-! ### Whole commands -/

section
variable {i : Instr} {op : BitVec 8} {s : State}

/-- A fixed-width encode whose write is acknowledged, from its acceptance to its end (R43, R160, R162). -/
theorem exec_fixedEnc_of_ack {ty : PrimType} {x : Word64} {byteOf : Word64 → Byte} {rest : List SnkAnswer}
    (haccept : acceptBody i s = acceptEncode op ty x s)
    (htransfer : ∀ t, transferBody i t = encodeOneByte (byteOf t.rem) t) (hf : s.fsm = .idle)
    (hs : s.snkAnswers = .ack :: rest) :
    ∃ t u, exec i s = .next t ∧ exec i t = .next u ∧ u.fsm = .idle ∧ u.srcAnswers = s.srcAnswers ∧
      u.status.valid = false ∧ u.acked = s.acked ++ [byteOf (operandSlice ty x)] := by
  have hrun := (exec_of_run (acceptEncode_fsm op ty x s) i).trans ((htransfer _).trans (encodeOneByte_of_ack hs))
  exact ⟨_, _, (exec_of_idle hf i).trans (congrArg _ haccept), hrun, rfl, rfl, rfl, rfl⟩

/-- A fixed-width decode that gets its byte, from its acceptance to its end (R43, R161, R163). -/
theorem exec_fixedDec_of_byte {value : Byte → Word64} {b : Byte} {rest : List SrcAnswer}
    (haccept : acceptBody i s = acceptDecode op s) (htransfer : ∀ t, transferBody i t = decodeOneByte value t)
    (hf : s.fsm = .idle) (hs : s.srcAnswers = .byte b :: rest) :
    ∃ t u, exec i s = .next t ∧ exec i t = .next u ∧ u.fsm = .idle ∧ u.snkAnswers = s.snkAnswers ∧
      u.acked = s.acked ∧ u.status.valid = true ∧ u.result = value b := by
  have hrun := (exec_of_run (acceptDecode_fsm op s) i).trans ((htransfer _).trans (decodeOneByte_of_byte hs))
  exact ⟨_, _, (exec_of_idle hf i).trans (congrArg _ haccept), hrun, rfl, rfl, rfl, rfl, rfl⟩

end

/-! ### The two codecs -/

/-- The slice BOOL.ENC takes of OPERAND holds the bit it writes (R78, R160). -/
theorem boolByte_operandSlice (x : Word64) : boolByte (operandSlice .bool x) = boolByte x :=
  congrArg (BitVec.setWidth 8) (lowBits_zext64 (by decide) (lowBits 1 x))

/-- The slice BYTE.ENC takes of OPERAND holds the byte it writes (R78, R162). -/
theorem lowBits_operandSlice (x : Word64) : lowBits 8 (operandSlice .byte x) = lowBits 8 x :=
  lowBits_zext64 (by decide) (lowBits 8 x)

/-- Only 0x00 and 0x01 survive BOOL.DEC and BOOL.ENC (R165). -/
theorem boolByte_boolValue (b : Byte) : boolByte (boolValue b) = if b.toNat = 0 then 0x00#8 else 0x01#8 := by
  rw [boolValue_eq_ite]
  split <;> rfl

/-- A pattern widened by its sign passes back through `lowBits`: every byte survives BYTE.DEC and BYTE.ENC (R166). -/
theorem lowBits_sext64 {w : Nat} (h : w ≤ 64) (v : BitVec w) : lowBits w (sext64 v) = v := by
  ext k hk
  have hk64 : k < 64 := hk.trans_le h
  simp [lowBits, sext64, BitVec.getElem_signExtend, hk, hk64]

/-- Settles O18: the decode ends in IDLE with the sink untouched, so the encode of RESULT is accepted next. -/
theorem boolDecodeThenEncode : Obligations.BoolDecodeThenEncode := by
  intro b x s src snk hf hsrc hsnk
  obtain ⟨t, u, ht, hu, hidle, hkept, hacked, hvalid, hresult⟩ :=
    exec_fixedDec_of_byte (i := .boolDec x) rfl (fun _ => rfl) hf hsrc
  obtain ⟨v, w, hv, hw, -, -, hcleared, hwritten⟩ :=
    exec_fixedEnc_of_ack (i := .boolEnc u.result) (byteOf := boolByte) rfl (fun _ => rfl) hidle (hkept.trans hsnk)
  refine ⟨t, u, v, w, ht, hu, hv, hw, hvalid, hresult.trans (boolValue_eq_ite b), hcleared, ?_⟩
  rw [hwritten, hacked, boolByte_operandSlice, hresult, boolByte_boolValue]

/-- Settles O19: in either order the first command ends in IDLE and leaves the other's port as it was. -/
theorem byteCodecIsTheIdentity : Obligations.ByteCodecIsTheIdentity := by
  refine fun b x s src snk hf hsrc hsnk => ⟨?_, fun hx => ?_⟩
  · obtain ⟨t, u, ht, hu, hidle, hkept, hacked, -, hresult⟩ :=
      exec_fixedDec_of_byte (i := .byteDec x) rfl (fun _ => rfl) hf hsrc
    obtain ⟨v, w, hv, hw, -, -, -, hwritten⟩ :=
      exec_fixedEnc_of_ack (i := .byteEnc u.result) (byteOf := lowBits 8) rfl (fun _ => rfl) hidle (hkept.trans hsnk)
    refine ⟨t, u, v, w, ht, hu, hv, hw, ?_⟩
    rw [hwritten, hacked, lowBits_operandSlice, hresult, lowBits_sext64 (by decide)]
  · have hbyte : lowBits 8 x = b := BitVec.eq_of_toNat_eq ((lowBits_toNat 8 x).trans hx)
    obtain ⟨t, u, ht, hu, hidle, hkept, -, hwritten⟩ :=
      exec_fixedEnc_of_ack (i := .byteEnc x) (byteOf := lowBits 8) rfl (fun _ => rfl) hf hsnk
    obtain ⟨v, w, hv, hw, -, -, -, -, hresult⟩ :=
      exec_fixedDec_of_byte (i := .byteDec x) rfl (fun _ => rfl) hidle (hkept.trans hsrc)
    refine ⟨t, u, v, w, ht, hu, ?_, hv, hw, ?_⟩
    · rw [hwritten, lowBits_operandSlice, hbyte]
    · rw [hresult, sext64_toInt (by decide)]

end Sys2Proof.Machine
end

section
/-! PROOFS. The two statements about stops (60_exceptions.md R180, R184): with the invariant no step stops, and without
it a step stops in two situations only. -/

namespace Sys2Proof.Machine

/-- Settles O42: with the invariant OP is legal in RUN, and a decode is met at an index below MAX. -/
theorem blockNeverStops : Obligations.BlockNeverStops := fun _ hi => hi.safeStep

/-- The situations in which a step stops, both in RUN and both the model's choice (log entries 15 and 16). -/
inductive Stop (s : State) : Fault → Prop
  /-- OP names no command (R44). -/
  | opIllegal (hf : s.fsm = .run) (hl : legal s.op = false) : Stop s .opNotLegalInRun
  /-- A byte arrives at a decode index of MAX or more (R104, R140). -/
  | indexOutOfRange {w max : Nat} {b : Byte} {rest : List SrcAnswer} (hf : s.fsm = .run) (hop : IsVarDec s.op w max)
      (hs : s.srcAnswers = .byte b :: rest) (hk : max ≤ s.status.count.toNat) : Stop s .decStepIndexOutOfRange

section
variable {s : State}

theorem decodeVarStep_next_or_fault {w max : Nat} (hf : s.fsm = .run) (hop : IsVarDec s.op w max) :
    (∃ t, decodeVarStep w max s = .next t) ∨ ∃ f, decodeVarStep w max s = .fault f ∧ Stop s f := by
  obtain h | ⟨h, hk, b, rest, hs⟩ := decodeVarStep_next_or_stop w max s
  · exact .inl h
  · exact .inr ⟨_, h, .indexOutOfRange hf hop hs hk⟩

/-- Of the transfer bodies only the VarInt and VarLong decodes can stop (R44). -/
theorem transferBody_next_or_fault {i : Instr} (hf : s.fsm = .run) (hop : s.op = i.opcode) :
    (∃ t, transferBody i s = .next t) ∨ ∃ f, transferBody i s = .fault f ∧ Stop s f := by
  cases i with
  | boolEnc => exact .inl (encodeOneByte_next _ s)
  | byteEnc => exact .inl (encodeOneByte_next _ s)
  | varintEnc => exact .inl (encodeVarStep_next 32 s)
  | varlongEnc => exact .inl (encodeVarStep_next 64 s)
  | boolDec => exact .inl (decodeOneByte_next _ s)
  | byteDec => exact .inl (decodeOneByte_next _ s)
  | varintDec => exact decodeVarStep_next_or_fault hf (.inl ⟨hop, rfl, rfl⟩)
  | varlongDec => exact decodeVarStep_next_or_fault hf (.inr ⟨hop, rfl, rfl⟩)

theorem blockStep_next_or_fault (s : State) :
    (∃ t, blockStep s = .next t) ∨ ∃ f, blockStep s = .fault f ∧ Stop s f := by
  obtain ⟨-, -, hb⟩ | ⟨c, later, i, -, -, -, hb⟩ | ⟨c, later, e, -, -, -, hb⟩ | ⟨i, hf, hd, hb⟩ | ⟨e, hf, hd, hb⟩ :=
    blockStep_cases s
  · exact .inl ⟨_, hb⟩
  · exact .inl ⟨_, hb⟩
  · exact .inl ⟨_, hb⟩
  · exact hb ▸ transferBody_next_or_fault hf (congrArg Command.op (decode_ok_iff.1 hd)).symm
  · exact .inr ⟨_, hb, .opIllegal hf (legal_eq_false_of_decode_error hd)⟩

/-- Stopping does not depend on the reset input. -/
theorem Stop.of_resetInput {r : List ResetSample} {f : Fault} (h : Stop { s with resetInput := r } f) : Stop s f := by
  cases h with
  | opIllegal hf hl => exact .opIllegal hf hl
  | indexOutOfRange hf hop hs hk => exact .indexOutOfRange hf hop hs hk

/-- Every step goes on, or stops in one of the two situations with reset not asserted (R184). -/
theorem step_next_or_fault (s : State) :
    (∃ t, step s = .next t) ∨ ∃ f, step s = .fault f ∧ NotReset 1 s ∧ Stop s f := by
  obtain ⟨l, rest, hr⟩ | hn := asserted_or_notReset s
  · exact .inl ⟨_, step_of_asserted hr⟩
  · rw [step_of_notReset hn]
    obtain h | ⟨f, hb, hstop⟩ := blockStep_next_or_fault { s with resetInput := s.resetInput.tail }
    · exact .inl h
    · exact .inr ⟨f, hb, hn, hstop.of_resetInput⟩

theorem step_ne_refused (s : State) (r : Refusal) : step s ≠ .refused r := by
  obtain ⟨t, h⟩ | ⟨f, h, -⟩ := step_next_or_fault s <;> simp [h]

theorem stop_of_step_fault {f : Fault} (h : step s = .fault f) : NotReset 1 s ∧ Stop s f := by
  obtain ⟨t, ht⟩ | ⟨g, hg, hn, hstop⟩ := step_next_or_fault s
  · cases ht.symm.trans h
  · cases hg.symm.trans h
    exact ⟨hn, hstop⟩

end

/-- Settles O55: a fault is one of the two stops, and IsVarDec fixes MAX by the opcode. -/
theorem modelStopsNowhereElse : Obligations.ModelStopsNowhereElse := by
  refine fun s => ⟨step_ne_refused s, fun f h => ?_⟩
  obtain ⟨hn, hstop⟩ := stop_of_step_fault h
  cases hstop with
  | opIllegal hf hl => exact ⟨hn, hf, .inl ⟨rfl, hl⟩⟩
  | indexOutOfRange hf hop hs hk =>
    refine ⟨hn, hf, .inr ⟨rfl, ⟨_, _, hs⟩, ?_⟩⟩
    obtain ⟨ho, -, rfl⟩ | ⟨ho, -, rfl⟩ := hop
    · exact .inl ⟨ho, hk⟩
    · exact .inr ⟨ho, hk⟩

end Sys2Proof.Machine
end

section
/-! PROOFS. Reset and what the environment may do (70_reset_and_hazards.md R210 to R221): what a reset leaves at the
ports, offers made to a busy block, and how a command in progress depends on the answers of its own port. -/

namespace Sys2Proof.Machine

/-! ### The ports at a reset -/

section
variable {s : State} {l : Bool}

/-- A reset with no transaction to withdraw, or whose sample loses no answer, leaves the state as it is (R211). -/
theorem withdraw_of_kept (h : s.fsm = .idle ∨ l = false) : withdraw l s = s := by
  obtain hf | rfl := h
  · simp [withdraw, hf]
  · cases hf : s.fsm <;> simp [withdraw, hf]

/-- The lost answer of a withdrawn `SrcRead` is the source's first (R71, R211). -/
theorem withdraw_of_decode (hf : s.fsm = .run) (hdir : s.op.getLsbD 3 = true) :
    withdraw true s = { s with srcAnswers := s.srcAnswers.tail } := by
  simp only [withdraw, hf, hdir, if_true]

/-- The lost answer of a withdrawn `SnkWrite` is the sink's first (R71, R211). -/
theorem withdraw_of_encode (hf : s.fsm = .run) (hdir : s.op.getLsbD 3 = false) :
    withdraw true s = { s with snkAnswers := s.snkAnswers.tail } := by
  simp only [withdraw, hf, hdir, Bool.false_eq_true, if_false]

@[simp] theorem resetStep_srcAnswers : (resetStep l s).srcAnswers = (withdraw l s).srcAnswers := rfl
@[simp] theorem resetStep_snkAnswers : (resetStep l s).snkAnswers = (withdraw l s).snkAnswers := rfl

end

/-- Settles O9: the step is the reset step, which writes FSM, STATUS and, unless they are kept, the ports' answers. -/
theorem resetStepSetsTheResetValues : Obligations.ResetStepSetsTheResetValues := by
  intro s l later hr
  have hword : Status.cleared.word = 0x0000#16 := by decide
  have hports (hkept : s.fsm = .idle ∨ l = false) :
      (withdraw l { s with resetInput := later }).srcAnswers = s.srcAnswers ∧
      (withdraw l { s with resetInput := later }).snkAnswers = s.snkAnswers := by
    rw [withdraw_of_kept (by exact hkept)]
    exact ⟨rfl, rfl⟩
  exact ⟨_, step_of_asserted hr, by simpa [readStatus, hword] using hports⟩

/-- Settles O10: the step is the reset step, whose withdrawal takes at most the first answer of the port DIR selects. -/
theorem resetWithdrawsOneTransaction : Obligations.ResetWithdrawsOneTransaction := by
  intro s t l later hr h
  rw [step_of_asserted hr] at h
  cases h
  rw [resetStep_srcAnswers, resetStep_snkAnswers]
  refine ⟨fun hf hl hdir => ?_, fun hf hl hdir => ?_, fun hkept => ?_⟩
  · rw [hl, withdraw_of_decode (by exact hf) (by exact hdir)]
    exact ⟨rfl, rfl⟩
  · rw [hl, withdraw_of_encode (by exact hf) (by exact hdir)]
    exact ⟨rfl, rfl⟩
  · rw [withdraw_of_kept (by exact hkept)]
    exact ⟨rfl, rfl⟩

/-! ### Offers made to a busy block -/

/-- Whenever `k` goes on, it leaves the offers alone, and with any other offers it goes on to the same state beside them
(R214). -/
def IgnoresOffers (k : State → Result) : Prop :=
  ∀ s t, k s = .next t →
    t.offers = s.offers ∧ ∀ others, k { s with offers := others } = .next { t with offers := others }

theorem snkWrite_ignoresOffers {k : State → Result} (hk : IgnoresOffers k) (b : Byte) :
    IgnoresOffers (snkWrite b k) := by
  intro s t h
  obtain ⟨hs, he⟩ | ⟨c, rest, hs, he⟩ | ⟨rest, hs, he⟩ := snkWrite_cases b k s <;> rw [he] at h
  · cases h
    exact ⟨rfl, fun _ => snkWrite_of_nil hs⟩
  · cases h
    exact ⟨rfl, fun _ => snkWrite_of_fail hs⟩
  · obtain ⟨ho, hothers⟩ := hk _ _ h
    exact ⟨ho, fun others => (snkWrite_of_ack (by exact hs)).trans (hothers others)⟩

theorem srcRead_ignoresOffers {k : Byte → State → Result} (hk : ∀ b, IgnoresOffers (k b)) :
    IgnoresOffers (srcRead k) := by
  intro s t h
  obtain ⟨hs, he⟩ | ⟨c, rest, hs, he⟩ | ⟨b, rest, hs, he⟩ := srcRead_cases k s <;> rw [he] at h
  · cases h
    exact ⟨rfl, fun _ => srcRead_of_nil hs⟩
  · cases h
    exact ⟨rfl, fun _ => srcRead_of_fail hs⟩
  · obtain ⟨ho, hothers⟩ := hk b _ _ h
    exact ⟨ho, fun others => (srcRead_of_byte (by exact hs)).trans (hothers others)⟩

theorem IgnoresOffers.ite {p : State → Prop} [DecidablePred p] {k k' : State → Result}
    (hp : ∀ s others, p { s with offers := others } ↔ p s) (hk : IgnoresOffers k) (hk' : IgnoresOffers k') :
    IgnoresOffers fun s => if p s then k s else k' s := by
  intro s t h
  by_cases hs : p s
  · simpa only [hp, if_pos hs] using hk s t (by simpa only [if_pos hs] using h)
  · simpa only [hp, if_neg hs] using hk' s t (by simpa only [if_neg hs] using h)

theorem IgnoresOffers.next {g : State → State}
    (hg : ∀ s, (g s).offers = s.offers ∧ ∀ others, g { s with offers := others } = { g s with offers := others }) :
    IgnoresOffers fun s => .next (g s) := by
  intro s t h
  cases h
  exact ⟨(hg s).1, fun others => congrArg _ ((hg s).2 others)⟩

theorem encodeOneByte_ignoresOffers (b : Byte) : IgnoresOffers (encodeOneByte b) :=
  snkWrite_ignoresOffers (.next (g := fun t => complete (countOne t)) fun _ => ⟨rfl, fun _ => rfl⟩) b

theorem decodeOneByte_ignoresOffers (value : Byte → Word64) : IgnoresOffers (decodeOneByte value) :=
  srcRead_ignoresOffers fun _ => .next fun _ => ⟨rfl, fun _ => rfl⟩

theorem encodeVarStep_ignoresOffers (w : Nat) : IgnoresOffers (encodeVarStep w) := by
  intro s t h
  simp only [encodeVarStep] at h ⊢
  refine snkWrite_ignoresOffers ?_ _ s t h
  exact .ite (fun _ _ => Iff.rfl) (.next fun _ => ⟨rfl, fun _ => rfl⟩) (.next fun _ => ⟨rfl, fun _ => rfl⟩)

theorem takeGroup_ignoresOffers (w max : Nat) (b : Byte) : IgnoresOffers (takeGroup w max b) :=
  .ite (p := fun s => s.status.count.toNat < max) (fun _ _ => Iff.rfl)
    (.ite (fun _ _ => Iff.rfl) (.next fun _ => ⟨rfl, fun _ => rfl⟩)
      (.ite (p := fun s => (s.status.count + 1#4).toNat = max) (fun _ _ => Iff.rfl)
        (.next fun _ => ⟨rfl, fun _ => rfl⟩) (.next fun _ => ⟨rfl, fun _ => rfl⟩)))
    (fun s t h => by cases h)

/-- No transfer body looks at the offers or writes them (R44, R214). -/
theorem transferBody_ignoresOffers (i : Instr) : IgnoresOffers (transferBody i) := by
  cases i with
  | boolEnc => exact fun s => encodeOneByte_ignoresOffers (boolByte s.rem) s
  | byteEnc => exact fun s => encodeOneByte_ignoresOffers (lowBits 8 s.rem) s
  | varintEnc => exact encodeVarStep_ignoresOffers 32
  | varlongEnc => exact encodeVarStep_ignoresOffers 64
  | boolDec => exact decodeOneByte_ignoresOffers _
  | byteDec => exact decodeOneByte_ignoresOffers _
  | varintDec => exact srcRead_ignoresOffers (takeGroup_ignoresOffers 32 5)
  | varlongDec => exact srcRead_ignoresOffers (takeGroup_ignoresOffers 64 10)

/-- The block's own step from RUN, as `IgnoresOffers` says it of a transfer body. -/
theorem blockStep_ignoresOffers_of_run {s t : State} (hf : s.fsm = .run) (h : blockStep s = .next t) :
    t.offers = s.offers ∧ ∀ others, blockStep { s with offers := others } = .next { t with offers := others } := by
  obtain ⟨hi, -⟩ | ⟨_, _, _, hi, -⟩ | ⟨_, _, _, hi, -⟩ | ⟨i, -, hd, hb⟩ | ⟨_, -, -, hb⟩ := blockStep_cases s
  · simp [hf] at hi
  · simp [hf] at hi
  · simp [hf] at hi
  · obtain ⟨ho, hothers⟩ := transferBody_ignoresOffers i s t (hb ▸ h)
    have hop : s.op = i.opcode := (congrArg Command.op (decode_ok_iff.1 hd)).symm
    exact ⟨ho, fun others => (blockStep_of_run (by exact hf) (by exact hop)).trans (hothers others)⟩
  · simp [hb] at h

theorem withdraw_with_offers (l : Bool) (s : State) (others : List Command) :
    withdraw l { s with offers := others } = { withdraw l s with offers := others } := by
  unfold withdraw
  split
  · split <;> simp_all
  · rfl

/-- Settles O13: a step from RUN is a reset or the transfer body of OP's command, and neither looks at the offers. -/
theorem offersWhileBusyHaveNoEffect : Obligations.OffersWhileBusyHaveNoEffect := by
  intro s t hf h
  obtain ⟨l, rest, hr⟩ | hn := asserted_or_notReset s
  · rw [step_of_asserted hr] at h
    cases h
    refine ⟨by simp, fun others => ?_⟩
    have hw := withdraw_with_offers l { s with resetInput := rest } others
    rw [step_of_asserted (by exact hr)]
    simp only [resetStep, hw]
  · rw [step_of_notReset hn] at h
    obtain ⟨ho, hothers⟩ := blockStep_ignoresOffers_of_run (by exact hf) h
    exact ⟨ho, fun others => (step_of_notReset (by exact hn)).trans (hothers others)⟩

/-! ### A command in progress and its own port -/

section
variable {n : Nat} {s t : State}

/-- The answers the port DIR selects has still to give (R71). -/
def ownAnswers (s : State) : Nat := if s.op.getLsbD 3 then s.srcAnswers.length else s.snkAnswers.length

theorem ownAnswers_of_decode (h : s.op.getLsbD 3 = true) : ownAnswers s = s.srcAnswers.length := by
  simp only [ownAnswers, h, if_true]

theorem ownAnswers_of_encode (h : s.op.getLsbD 3 = false) : ownAnswers s = s.snkAnswers.length := by
  simp only [ownAnswers, h, Bool.false_eq_true, if_false]

theorem PortSilent.ownAnswers_eq_zero (h : PortSilent s) : ownAnswers s = 0 := by
  obtain ⟨hdir, hs⟩ | ⟨hdir, hs⟩ := h
  · rw [ownAnswers_of_encode hdir, hs, List.length_nil]
  · rw [ownAnswers_of_decode hdir, hs, List.length_nil]

theorem Transfer.resetInput (h : Transfer s t) : t.resetInput = s.resetInput := by cases h <;> rfl

/-- A transfer that its port answers ends the command, or uses up one answer and raises COUNT by 1 (R29, R44, R52). -/
theorem Transfer.ends_or_advances (hi : Inv s) (hf : s.fsm = .run) (ha : 0 < ownAnswers s) (h : Transfer s t) :
    (t.fsm = .idle ∧ t.status.done = true) ∨
    (t.fsm = .run ∧ t.status.count.toNat = s.status.count.toNat + 1 ∧ ownAnswers s = ownAnswers t + 1) := by
  obtain ⟨hr, hport, hst, -⟩ | ⟨hr, -, -, -, hst, -⟩ | ⟨hr, -, -, hst, -⟩ | ⟨hr, -, -, hst, -⟩ | ⟨hr, -, hst, -⟩ |
    ⟨hp, -⟩ := h.row hi hf
  · refine .inr ⟨hr, by simpa [hst] using hi.count_succ hf, ?_⟩
    obtain ⟨hdir, hs, -⟩ | ⟨hdir, b, hs⟩ := hport
    · rw [ownAnswers_of_encode hdir, ownAnswers_of_encode (h.op ▸ hdir), hs, List.length_cons]
    · rw [ownAnswers_of_decode hdir, ownAnswers_of_decode (h.op ▸ hdir), hs, List.length_cons]
  · exact .inl ⟨hr, by rw [hst]⟩
  · exact .inl ⟨hr, by rw [hst]⟩
  · exact .inl ⟨hr, by rw [hst]⟩
  · exact .inl ⟨hr, by rw [hst]⟩
  · exact absurd hp.ownAnswers_eq_zero ha.ne'

/-- The same of a step from RUN that no reset meets (R210). -/
theorem step_ends_or_advances (hi : Inv s) (hf : s.fsm = .run) (ha : 0 < ownAnswers s) (hn : NotReset 1 s)
    (h : step s = .next t) :
    (t.fsm = .idle ∧ t.status.done = true) ∨
    (t.fsm = .run ∧ t.status.count.toNat = s.status.count.toNat + 1 ∧ ownAnswers s = ownAnswers t + 1 ∧
      t.resetInput = s.resetInput.tail) := by
  have htr := transfer_of_step hn hf h
  obtain hend | ⟨hrun, hcount, hleft⟩ := htr.ends_or_advances (hi.with_resetInput s.resetInput.tail) hf ha
  · exact .inl hend
  · exact .inr ⟨hrun, hcount, hleft, htr.resetInput⟩

/-- With COUNT at `10 - n` or above, `n` answers of its own port and no reset, a command ends within `n` steps: each step
that does not end it raises COUNT, which stays below 10 in RUN (R39, R220). -/
theorem run_ends_of_ownAnswers (hi : Inv s) (hf : s.fsm = .run) (hk : 10 ≤ s.status.count.toNat + n)
    (ha : n ≤ ownAnswers s) (hn : NotReset n s) :
    ∃ k t, 1 ≤ k ∧ k ≤ n ∧ core.run k s = .next t ∧ t.fsm = .idle ∧ t.status.done = true := by
  induction n generalizing s with
  | zero =>
    have := hi.count_le_nine hf
    omega
  | succ n ih =>
    obtain ⟨u, hu⟩ := hi.safeStep
    obtain ⟨hidle, hdone⟩ | ⟨hrun, hcount, hleft, hreset⟩ :=
      step_ends_or_advances hi hf (Nat.zero_lt_of_lt ha) hn.first hu
    · exact ⟨1, u, le_rfl, by omega, core_run_succ hu 0, hidle, hdone⟩
    · obtain ⟨k, t, -, hkn, hrt, hend⟩ := ih (everyStepKeepsTheInvariant s u hi hu) hrun (by omega) (by omega)
        (hn.later hreset)
      exact ⟨k + 1, t, by omega, by omega, (core_run_succ hu k).trans hrt, hend⟩

/-- While its own port is silent and no reset comes, a command in progress stays as it is (R52, R221). -/
theorem run_eq_of_silent (hi : Inv s) (hf : s.fsm = .run) (hp : PortSilent s) (hr : s.resetInput = []) (n : Nat) :
    core.run n s = .next s := by
  have hhold : step s = .next { s with resetInput := s.resetInput.tail } :=
    blockHoldsWithoutAnAnswer s hi (notReset_of_nil hr) (.inr (hp.imp (⟨hf, ·⟩) (⟨hf, ·⟩)))
  have htail : ({ s with resetInput := s.resetInput.tail } : State) = s := by
    cases s
    simp_all
  rw [htail] at hhold
  induction n with
  | zero => rfl
  | succ n ih => exact (core_run_succ hhold n).trans ih

end

/-- Settles O39: COUNT bounds the steps an answered command takes, and an unanswered one holds. -/
theorem commandEndsIfItsPortAnswers : Obligations.CommandEndsIfItsPortAnswers := by
  refine fun s hi hf => ⟨fun hport hn => ?_, fun hp hr => run_eq_of_silent hi hf hp hr⟩
  refine run_ends_of_ownAnswers hi hf (Nat.le_add_left _ _) ?_ hn
  obtain ⟨hdir, ha⟩ | ⟨hdir, ha⟩ := hport
  · exact ownAnswers_of_encode hdir ▸ ha
  · exact ownAnswers_of_decode hdir ▸ ha

end Sys2Proof.Machine
end
